-- ==== Sys2Proof/Word.lean ====
section
/-! DEFINITION. The value types of the block: bytes, and the numbers of the format `NUMFMT`. -/

namespace Sys2Proof

/-- A `u8` of the spec (00_scope.md R11). -/
abbrev Byte := BitVec 8

/-- The 64 bits of a binary64 field on the host port (20_memory.md R43). -/
abbrev F64 := BitVec 64

/-- A `Num`: a finite value of `NUMFMT`, IEEE 754 binary64 (00_scope.md R12, 47_arithmetic_control_access.md R147).
The biased exponent 2047 (infinities and NaNs) is no exponent of a `Num`, so a window of `Num`s is
finite by its type (10_state.md R30). -/
structure Num64 where
  /-- The sign bit. -/
  neg  : Bool
  /-- The biased exponent; 0 for the zeros and the subnormals. -/
  expo : Fin 2047
  /-- The stored fraction. -/
  frac : BitVec 52
  deriving DecidableEq, Repr, Inhabited

/-- A value of `NUMFMT` that is not a NaN: what `numerics` returns (00_scope.md R18). -/
inductive Value where
  /-- A finite value. -/
  | num (n : Num64)
  /-- An infinity, with its sign. -/
  | inf (neg : Bool)
  deriving DecidableEq, Repr, Inhabited

/-- The zero of the given sign; both denote 0 (30_encoding.md R67). -/
def Num64.zero (neg : Bool) : Num64 := ⟨neg, 0, 0⟩

end Sys2Proof
end

