-- ==== Sys2Proof/Config.lean ====
section
/-! DEFINITION. The construction parameters of 00_scope.md R9 and the free values the spec leaves open. -/

namespace Sys2Proof

/-- The parameters of 00_scope.md R9 that are arguments of the model or may be configured. A machine carries
its parameters in its state (`State.cfg`), where no command writes them, so a claim about every state is a
claim about every configuration. Durations are in nanoseconds (log 6). -/
structure Config where
  /-- `LCD_ADDR`, the bus address of the display expander (92_eei_decisions.md D10). -/
  lcdAddr      : BitVec 7
  /-- `COLS` (D11). -/
  cols         : Nat
  /-- `ROWS` (D11). -/
  rows         : Nat
  /-- `RS_MASK` (D8). -/
  rsMask       : Byte
  /-- `EN_MASK` (D8). -/
  enMask       : Byte
  /-- `BL_MASK` (D8). -/
  blMask       : Byte
  /-- `T_POWERUP`, a duty of the Host (D35). -/
  tPowerup     : Nat
  /-- `TC_SCK_HIGH_MIN` (D21). -/
  tcSckHighMin : Nat
  /-- `TC_SCK_LOW_MIN` (D21). -/
  tcSckLowMin  : Nat
  /-- `VREF`, volts (D24). -/
  vref         : Rat
  /-- `FULL_SCALE` (D24). -/
  fullScale    : Nat
  /-- `ADC_BITS` (D24). -/
  adcBits      : Nat
  /-- `N_TC` (D25). -/
  nTc          : Nat
  /-- `N_AMB` (D25). -/
  nAmb         : Nat
  deriving DecidableEq, Repr

/-- What a `numerics` function may answer where 00_scope.md R18 and 47_arithmetic_control_access.md R148 fix
no value: the sign of a zero result (93_implementation_defined.md U11), a finite value (U9), or a value that may
be an infinity (U29). -/
structure FreeResult where
  /-- The sign of an exact zero. -/
  zeroNeg : Bool
  /-- The result when it must be finite and is not fixed. -/
  finite  : Num64
  /-- The result when it may be an infinity. -/
  any     : Value
  deriving DecidableEq, Repr, Inhabited

/-- `numerics.amb`'s open values, for `VREF`, `FULL_SCALE` and the sample (log 9). A free value. -/
opaque Config.numericsAmb : Rat → Nat → Nat → FreeResult

/-- `numerics.mean`'s open values, for a window (log 9). A free value. -/
opaque Config.numericsMean : List Num64 → FreeResult

/-- `numerics.comp`'s open values, for `tc` and `amb` (log 9). A free value. -/
opaque Config.numericsComp : Num64 → Num64 → FreeResult

/-- The level a `SamplePin(TC_SO)` reads when `env.tcIn` lists none, by draw number (log 5). A free value
(43_thermocouple.md R117). -/
opaque Config.freeTcBit : Nat → Bool

/-- The ADC's sample when `env.adcIn` gives none of the domain, by draw number, before it is brought into the
domain (log 5). A free value (44_ambient.md R123). -/
opaque Config.freeAdc : Nat → Nat

/-- The configuration of `State.reset`: the conventions of 95_test_vectors.md where the spec gives no value.
DESIGN CHOICE (log 1), unsafe; no statement rests on it. -/
def Config.board : Config where
  lcdAddr      := 0
  cols         := 16
  rows         := 2
  rsMask       := 0x01
  enMask       := 0x04
  blMask       := 0x08
  tPowerup     := 0
  tcSckHighMin := 0
  tcSckLowMin  := 0
  vref         := 1
  fullScale    := 1024
  adcBits      := 11
  nTc          := 5
  nAmb         := 5

end Sys2Proof
end

