-- ==== Sys2Proof/Machine/Params.lean ====
section
/-! DEFINITION. The constants of 00_scope.md R9 and the check of a configuration (60_exceptions.md R162). -/

namespace Sys2Proof.Machine

/-- Microseconds, in the model's nanoseconds (log 6). -/
def micro (n : Nat) : Nat := n * 1000

/-- Milliseconds, in the model's nanoseconds (log 6). -/
def milli (n : Nat) : Nat := n * 1000000

/-- `ENABLE_PULSE_HOLD_US`. -/
def enablePulseHold : Nat := micro 1
/-- `ENABLE_SETTLE_US`. -/
def enableSettle : Nat := micro 50
/-- `POST_CLEAR_DELAY_MS`. -/
def postClearDelay : Nat := milli 2
/-- `POST_HOME_DELAY_MS`. -/
def postHomeDelay : Nat := milli 2
/-- `INIT_DELAY_1_MS`. -/
def initDelay1 : Nat := milli 5
/-- `INIT_DELAY_2_MS`, a minimum (90_conflicts.md C7). -/
def initDelay2 : Nat := milli 5
/-- `INIT_DELAY_3_MS`. -/
def initDelay3 : Nat := milli 1
/-- `TC_CS_SETTLE_MS`. -/
def tcCsSettle : Nat := milli 1
/-- `TC_BITS`. -/
def tcBits : Nat := 16
/-- `TC_FAULT_BIT`. -/
def tcFaultBit : Nat := 2
/-- `TC_SHIFT`. -/
def tcShift : Nat := 3
/-- `TC_LSB_C`. -/
def tcLsbC : Rat := 1 / 4
/-- `AMB_GAIN_C_PER_V`. -/
def ambGain : Rat := 100
/-- `T_REF_C` (46_compensation.md R139). -/
def tRefC : Rat := 25

/-- `0x01` clear display (30_encoding.md R70). -/
def cmdClear : Byte := 0x01
/-- `0x02` return home (30_encoding.md R70). -/
def cmdHome : Byte := 0x02
/-- `0x06` entry-mode set: increment, no shift (30_encoding.md R70). -/
def cmdEntryMode : Byte := 0x06
/-- `0x28` function set: 4-bit, 2 lines, 5x8 (30_encoding.md R70). -/
def cmdFunctionSet : Byte := 0x28

/-- One of the four single bits of 3:0 (30_encoding.md R68). -/
def isLowBit (m : Byte) : Bool := m == 1 || m == 2 || m == 4 || m == 8

/-- The three masks are three distinct single bits of 3:0 (30_encoding.md R68; log 16). -/
def masksValid (c : Config) : Bool :=
  isLowBit c.rsMask && isLowBit c.enMask && isLowBit c.blMask &&
  c.rsMask != c.enMask && c.rsMask != c.blMask && c.enMask != c.blMask

/-- The parameter ranges of 00_scope.md R9; a configuration outside them is refused (60_exceptions.md R162,
93_implementation_defined.md U12, U13). -/
def configValid (c : Config) : Bool :=
  decide (1 ≤ c.cols) && decide (1 ≤ c.rows) && decide (c.rows ≤ 4) && masksValid c &&
  decide (0 < c.vref) && decide (0 < c.fullScale) && decide (c.fullScale < 2 ^ c.adcBits) &&
  decide (1 ≤ c.nTc) && decide (1 ≤ c.nAmb)

end Sys2Proof.Machine
end

