-- ==== Sys2Proof/Syntax.lean ====
section
/-! DEFINITION. The commands of the block: one constructor per row of spec/opcode_table.json. -/

namespace Sys2Proof

/-- A command with its operand fields (30_encoding.md R62, R64, R76). A `Num` operand field is kept as its 64
bits, since a Host may send a NaN or an infinity (R67). -/
inductive Instr where
  /-- `LCD_INIT` (R90). -/
  | lcdInit
  /-- `LCD_CMD b` (R85). -/
  | lcdCmd (b : Byte)
  /-- `LCD_DATA b` (R86). -/
  | lcdData (b : Byte)
  /-- `LCD_CLEAR` (R95). -/
  | lcdClear
  /-- `LCD_HOME` (R96). -/
  | lcdHome
  /-- `LCD_SETCURSOR col, row` (R97). -/
  | lcdSetCursor (col row : Byte)
  /-- `LCD_DISPLAY_ON` (R100). -/
  | lcdDisplayOn
  /-- `LCD_DISPLAY_OFF` (R101). -/
  | lcdDisplayOff
  /-- `LCD_CURSOR_ON` (R102). -/
  | lcdCursorOn
  /-- `LCD_CURSOR_OFF` (R103). -/
  | lcdCursorOff
  /-- `LCD_BLINK_ON` (R104). -/
  | lcdBlinkOn
  /-- `LCD_BLINK_OFF` (R105). -/
  | lcdBlinkOff
  /-- `LCD_BACKLIGHT_ON` (R107). -/
  | lcdBacklightOn
  /-- `LCD_BACKLIGHT_OFF` (R108). -/
  | lcdBacklightOff
  /-- `TC_READ` (R112). -/
  | tcRead
  /-- `AMB_READ` (R121). -/
  | ambRead
  /-- `FILT_PUSH_TC v` (R135). -/
  | filtPushTc (v : F64)
  /-- `FILT_PUSH_AMB v` (R136). -/
  | filtPushAmb (v : F64)
  /-- `COMPENSATE tc, amb` (R137). -/
  | compensate (tc amb : F64)
  /-- A reserved opcode (R76). -/
  | reserved (opc : Byte)
  deriving DecidableEq, Repr

end Sys2Proof
end

