-- ==== Sys2Proof/Machine/State.lean ====
section
/-! DEFINITION. The state of the block (10_state.md), its events, the reasons a step can stop, and reset. -/

namespace Sys2Proof.Machine

/-- The block's output pins (00_scope.md R8). -/
inductive Pin where
  | tcCs | tcSck
  deriving DecidableEq, Repr

/-- The events of the trace (00_scope.md R15). -/
inductive Event where
  /-- `BusWrite(addr, b)`. -/
  | busWrite (addr : BitVec 7) (b : Byte)
  /-- `SetPin(p, v)`. -/
  | setPin (p : Pin) (v : Bool)
  /-- `SamplePin(TC_SO) = v`; the block samples no other pin (47_arithmetic_control_access.md R154). -/
  | samplePin (v : Bool)
  /-- `AdcSample() = x`. -/
  | adcSample (x : Nat)
  /-- `Wait(d)`, `d` in nanoseconds (log 6). -/
  | wait (d : Nat)
  /-- `Respond(status, payload)`, the payload as its bytes on the port (30_encoding.md R65). -/
  | respond (status : Byte) (payload : List Byte)
  deriving DecidableEq, Repr

/-- The Engine's position (10_state.md R21). -/
inductive SeqPos where
  /-- Between commands. -/
  | ready
  /-- At step `k` of the rule of command `op`. -/
  | exec (op : Instr) (k : Nat)
  deriving DecidableEq, Repr

/-- What `raise Undefined(info)` records; the block has one cause (60_exceptions.md R161). -/
inductive UbInfo where
  /-- `SETCURSOR_ROW(row)`. -/
  | setCursorRow (row : Byte)
  deriving DecidableEq, Repr

/-- The inputs and draws of the agents outside the block (00_scope.md R7): the model's own fields, not the
spec's. -/
structure Env where
  /-- Bytes on the host command port, first to arrive first. -/
  port     : List Byte
  /-- The reset input is asserted (70_reset_and_hazards.md R176). -/
  resetReq : Bool
  /-- The Bus transport's draws (20_memory.md R47): `some n`, the next `n` writes complete and the one after
  them never returns; `none`, every write completes (log 4). -/
  busHang  : Option Nat
  /-- The levels of `TC_SO` at the next samples (log 5). -/
  tcIn     : List Bool
  /-- The next samples of the ADC (log 5). -/
  adcIn    : List Nat
  /-- How many samples have been drawn: the argument of the next free value (log 5). -/
  draws    : Nat
  deriving DecidableEq, Repr

/-- The state of 10_state.md section 8, with the parameters and the agents' inputs. -/
structure State where
  /-- The construction parameters (00_scope.md R9); written by no command. -/
  cfg     : Config
  /-- `s.seq` (R21). -/
  seq     : SeqPos
  /-- `s.lcd_addr` (R22). -/
  lcdAddr : BitVec 7
  /-- `s.lcd_cols` (R23). -/
  lcdCols : Nat
  /-- `s.lcd_rows` (R23). -/
  lcdRows : Nat
  /-- `s.bl` (R24). -/
  bl      : Bool
  /-- `s.dcf`: bit 2 displayOn, bit 1 cursorOn, bit 0 blinkOn (R25). -/
  dcf     : BitVec 3
  /-- `s.tc_cs` (R27). -/
  tcCs    : Bool
  /-- `s.tc_sck` (R27). -/
  tcSck   : Bool
  /-- `s.tc_sr` (R28). -/
  tcSr    : BitVec 16
  /-- `s.win[TC]`, oldest first (R30). -/
  winTc   : List Num64
  /-- `s.win[AMB]`, oldest first (R30). -/
  winAmb  : List Num64
  /-- `s.ub` (R36). -/
  ub      : Bool
  /-- `s.ub_info` (R36). -/
  ubInfo  : Option UbInfo
  /-- `s.refused` (R37). -/
  refused : Bool
  /-- `s.trace`, oldest event first (R38). -/
  trace   : List Event
  /-- The agents' inputs. -/
  env     : Env
  deriving DecidableEq, Repr

/-- Why a step takes none: the Engine takes no further step (log 12). -/
inductive Fault where
  /-- `s.ub = 1` (60_exceptions.md R161). Raised by `step` only. Safe: no behaviour is claimed. -/
  | undefinedBehaviour (info : Option UbInfo)
  /-- A `BusWrite` never returned (60_exceptions.md R163). Raised by `step` only. Safe: the run is stuck. -/
  | busHung
  deriving DecidableEq, Repr

/-- Why the model has no meaning for an input. -/
inductive Refusal where
  /-- No meaning yet for this row of the opcode table. Raised by an arm of `exec` only. Safe. -/
  | notModelled (mnemonic : String)
  /-- `s.refused = 1`: a configuration outside its ranges, a reset inside a command, or a command text the
  assembler rejects (60_exceptions.md R162). Raised by `step` only. Safe. -/
  | runRefused
  deriving DecidableEq, Repr

/-- No input pending and no bus write that hangs (DESIGN CHOICE, logs 3, 4, 5). -/
def Env.quiet : Env :=
  { port := [], resetReq := false, busHang := none, tcIn := [], adcIn := [], draws := 0 }

/-- The block of configuration `c` after reset (70_reset_and_hazards.md R177); a configuration outside its
ranges is refused (60_exceptions.md R162). `tcSr` has no reset value in the spec (log 2). -/
def State.resetOf (c : Config) : State where
  cfg     := c
  seq     := .ready
  lcdAddr := c.lcdAddr
  lcdCols := c.cols
  lcdRows := c.rows
  bl      := true
  dcf     := 0b100
  tcCs    := true
  tcSck   := false
  tcSr    := 0
  winTc   := []
  winAmb  := []
  ub      := false
  ubInfo  := none
  refused := !configValid c
  trace   := []
  env     := Env.quiet

/-- The machine right after reset, with the configuration of log 1. -/
def State.reset : State := State.resetOf Config.board

end Sys2Proof.Machine
end

