-- ==== Sys2Proof/Machine/Flags.lean ====
section
/-! DEFINITION. The flag computations of the block. There is no carry, overflow, zero or sign flag
(47_arithmetic_control_access.md R143); the flags are the three of `s.dcf` and the thermocouple's bit 2. -/

namespace Sys2Proof.Machine

/-- displayOn (10_state.md R25). -/
def flagDisplay : BitVec 3 := 0b100
/-- cursorOn (10_state.md R25). -/
def flagCursor : BitVec 3 := 0b010
/-- blinkOn (10_state.md R25). -/
def flagBlink : BitVec 3 := 0b001

/-- `s.dcf | m` (42_lcd_operations.md R99; R142 operation 9). -/
def setFlag (dcf m : BitVec 3) : BitVec 3 := dcf ||| m

/-- `s.dcf & ~m`, `~` within 3 bits (42_lcd_operations.md R99; R142 operation 9). -/
def clearFlag (dcf m : BitVec 3) : BitVec 3 := dcf &&& ~~~m

/-- The flags `LCD_INIT` sets: display on, cursor off, blink off (41_lcd_init.md R89). -/
def initFlags : BitVec 3 := 0b100

/-- `0x08 | zext_8(s.dcf)` (30_encoding.md R72; R142 operation 10). -/
def displayControlByte (dcf : BitVec 3) : Byte := 0x08 ||| dcf.setWidth 8

/-- Bit 2 of the raw word: the thermocouple is disconnected (43_thermocouple.md R115; R142 operation 5). -/
def sensorFault (w : BitVec 16) : Bool := w.getLsbD tcFaultBit

end Sys2Proof.Machine
end

