-- ==== Sys2Proof/WellFormed.lean ====
section
/-! DEFINITION. Which terms of `Instr` are commands of the host port. -/

namespace Sys2Proof

/-- The nineteen opcodes of 30_encoding.md R64. -/
def definedOpcodes : List Byte :=
  [0x10, 0x11, 0x12, 0x13, 0x14, 0x15, 0x16, 0x17, 0x18, 0x19, 0x1A, 0x1B, 0x1C, 0x1D,
   0x20, 0x30, 0x40, 0x41, 0x50]

/-- Every operand value is legal (30_encoding.md R77); a reserved opcode is one outside R64 (R76). -/
def WellFormed : Instr → Bool
  | .reserved opc => !definedOpcodes.contains opc
  | .lcdInit | .lcdCmd _ | .lcdData _ | .lcdClear | .lcdHome | .lcdSetCursor _ _
  | .lcdDisplayOn | .lcdDisplayOff | .lcdCursorOn | .lcdCursorOff | .lcdBlinkOn | .lcdBlinkOff
  | .lcdBacklightOn | .lcdBacklightOff | .tcRead | .ambRead
  | .filtPushTc _ | .filtPushAmb _ | .compensate _ _ => true

end Sys2Proof
end

