-- ==== Sys2Proof/Decode.lean ====
section
/-! DEFINITION. The host port's encoding: formats, the opcode map, the decoder and the encoder
(30_encoding.md R62 to R64, R76 to R78). -/

namespace Sys2Proof

/-- The command formats of 30_encoding.md R62. -/
inductive Format where
  | z | b | cr | n | nn
  deriving DecidableEq, Repr

/-- The length of a command in bytes (30_encoding.md R62, R78). -/
def Format.length : Format → Nat
  | .z => 1
  | .b => 2
  | .cr => 3
  | .n => 9
  | .nn => 17

/-- The sub-units an opcode's high nibble names (30_encoding.md R63). -/
inductive SubUnit where
  | lcd | thermocouple | ambient | filter | compensation
  deriving DecidableEq, Repr

/-- `OPC[7:4]` names the sub-unit (30_encoding.md R63). -/
def subUnitOf (opc : Byte) : Option SubUnit :=
  match (opc.extractLsb' 4 4).toNat with
  | 1 => some .lcd
  | 2 => some .thermocouple
  | 3 => some .ambient
  | 4 => some .filter
  | 5 => some .compensation
  | _ => none

/-- The 8 bytes of a binary64 field, least significant first (20_memory.md R43). -/
def leBytes (v : F64) : List Byte :=
  [v.extractLsb' 0 8, v.extractLsb' 8 8, v.extractLsb' 16 8, v.extractLsb' 24 8,
   v.extractLsb' 32 8, v.extractLsb' 40 8, v.extractLsb' 48 8, v.extractLsb' 56 8]

/-- The field its 8 bytes give, byte `b0` least significant (20_memory.md R43). -/
def ofLeBytes (b0 b1 b2 b3 b4 b5 b6 b7 : Byte) : F64 :=
  b7 ++ b6 ++ b5 ++ b4 ++ b3 ++ b2 ++ b1 ++ b0

/-- Why the bytes on the port are no command yet: the decoder rejects by name and the Engine waits (log 7). -/
inductive DecodeError where
  /-- No byte has arrived. Safe: nothing is executed. -/
  | empty
  /-- The opcode's format needs more bytes than have arrived. Safe: nothing is executed. -/
  | truncated (opc : Byte)
  deriving DecidableEq, Repr

/-- Format `B`: one operand byte. -/
def takeB (opc : Byte) (mk : Byte → Instr) : List Byte → Except DecodeError (Instr × List Byte)
  | b :: rest => .ok (mk b, rest)
  | [] => .error (.truncated opc)

/-- Format `CR`: column, then row. -/
def takeCR (opc : Byte) (mk : Byte → Byte → Instr) : List Byte → Except DecodeError (Instr × List Byte)
  | col :: row :: rest => .ok (mk col row, rest)
  | _ => .error (.truncated opc)

/-- Format `N`: one binary64 field. -/
def takeN (opc : Byte) (mk : F64 → Instr) : List Byte → Except DecodeError (Instr × List Byte)
  | b0 :: b1 :: b2 :: b3 :: b4 :: b5 :: b6 :: b7 :: rest =>
      .ok (mk (ofLeBytes b0 b1 b2 b3 b4 b5 b6 b7), rest)
  | _ => .error (.truncated opc)

/-- Format `NN`: two binary64 fields. -/
def takeNN (opc : Byte) (mk : F64 → F64 → Instr) : List Byte → Except DecodeError (Instr × List Byte)
  | a0 :: a1 :: a2 :: a3 :: a4 :: a5 :: a6 :: a7 :: rest =>
      takeN opc (mk (ofLeBytes a0 a1 a2 a3 a4 a5 a6 a7)) rest
  | _ => .error (.truncated opc)

/-- Reads one command from the front of the byte stream: the opcode byte, then the bytes its format asks for
(30_encoding.md R62, R64, R78); an opcode outside the map is a reserved command of one byte (R76). -/
def decode : List Byte → Except DecodeError (Instr × List Byte)
  | [] => .error .empty
  | opc :: rest =>
    match opc.toNat with
    | 0x10 => .ok (.lcdInit, rest)
    | 0x11 => takeB opc .lcdCmd rest
    | 0x12 => takeB opc .lcdData rest
    | 0x13 => .ok (.lcdClear, rest)
    | 0x14 => .ok (.lcdHome, rest)
    | 0x15 => takeCR opc .lcdSetCursor rest
    | 0x16 => .ok (.lcdDisplayOn, rest)
    | 0x17 => .ok (.lcdDisplayOff, rest)
    | 0x18 => .ok (.lcdCursorOn, rest)
    | 0x19 => .ok (.lcdCursorOff, rest)
    | 0x1A => .ok (.lcdBlinkOn, rest)
    | 0x1B => .ok (.lcdBlinkOff, rest)
    | 0x1C => .ok (.lcdBacklightOn, rest)
    | 0x1D => .ok (.lcdBacklightOff, rest)
    | 0x20 => .ok (.tcRead, rest)
    | 0x30 => .ok (.ambRead, rest)
    | 0x40 => takeN opc .filtPushTc rest
    | 0x41 => takeN opc .filtPushAmb rest
    | 0x50 => takeNN opc .compensate rest
    | _ => .ok (.reserved opc, rest)

/-- The opcode of a command (30_encoding.md R64, R76). -/
def opcodeOf : Instr → Byte
  | .lcdInit => 0x10
  | .lcdCmd _ => 0x11
  | .lcdData _ => 0x12
  | .lcdClear => 0x13
  | .lcdHome => 0x14
  | .lcdSetCursor _ _ => 0x15
  | .lcdDisplayOn => 0x16
  | .lcdDisplayOff => 0x17
  | .lcdCursorOn => 0x18
  | .lcdCursorOff => 0x19
  | .lcdBlinkOn => 0x1A
  | .lcdBlinkOff => 0x1B
  | .lcdBacklightOn => 0x1C
  | .lcdBacklightOff => 0x1D
  | .tcRead => 0x20
  | .ambRead => 0x30
  | .filtPushTc _ => 0x40
  | .filtPushAmb _ => 0x41
  | .compensate _ _ => 0x50
  | .reserved opc => opc

/-- The operand bytes of a command, in the order of its format (30_encoding.md R62). -/
def operandBytes : Instr → List Byte
  | .lcdCmd b => [b]
  | .lcdData b => [b]
  | .lcdSetCursor col row => [col, row]
  | .filtPushTc v => leBytes v
  | .filtPushAmb v => leBytes v
  | .compensate tc amb => leBytes tc ++ leBytes amb
  | .lcdInit | .lcdClear | .lcdHome | .lcdDisplayOn | .lcdDisplayOff | .lcdCursorOn | .lcdCursorOff
  | .lcdBlinkOn | .lcdBlinkOff | .lcdBacklightOn | .lcdBacklightOff | .tcRead | .ambRead
  | .reserved _ => []

/-- The bytes of a command on the host port: opcode, then operands, no padding (30_encoding.md R62). -/
def encode (i : Instr) : List Byte := opcodeOf i :: operandBytes i

/-- The format of the commands of an opcode, as the table of 30_encoding.md R64 lists it; a reserved opcode is a
command of length 1 (R76). -/
def formatOf (opc : Byte) : Format :=
  if opc = 0x11 ∨ opc = 0x12 then .b
  else if opc = 0x15 then .cr
  else if opc = 0x40 ∨ opc = 0x41 then .n
  else if opc = 0x50 then .nn
  else .z

/-- The longest command, in bytes (format `NN`). -/
def longestCommand : Nat := 17

/-- The first `n` bytes of a number, least significant first. -/
def bytesOfNat : Nat → Nat → List Byte
  | 0, _ => []
  | n + 1, w => BitVec.ofNat 8 w :: bytesOfNat n (w / 256)

/-- The bytes a table word of `nbits` bits stands for, with zero bytes up to the longest command. -/
def tableBytes (nbits w : Nat) : List Byte := bytesOfNat longestCommand (w % 2 ^ nbits)

/-- The bytes of the one command a table word stands for: as many as its opcode's format asks for. -/
def tableCommand (nbits w : Nat) : List Byte :=
  (tableBytes nbits w).take (formatOf (BitVec.ofNat 8 (w % 2 ^ nbits))).length

/-- The command the decoder reads from a word of spec/opcode_table.json. -/
def decodeTableWord (nbits w : Nat) : Option Instr :=
  match decode (tableBytes nbits w) with
  | .ok (i, _) => some i
  | .error _ => none

end Sys2Proof
end

