-- ==== Sys2Proof/Machine/Numerics.lean ====
section
/-! DEFINITION. The number format `NUMFMT` and the record `numerics` (00_scope.md R12, R18;
47_arithmetic_control_access.md R146 to R150). -/

namespace Sys2Proof

/-- How many units of the format's finest step, `2^-1074`, make 1. -/
def unitsPerOne : Nat := 2 ^ 1074

/-- The significand: the fraction, with the implicit bit of a normal number. -/
def Num64.significand (n : Num64) : Nat :=
  if n.expo.val = 0 then n.frac.toNat else 2 ^ 52 + n.frac.toNat

/-- The value of a `Num` in units of `2^-1074`; every finite binary64 value is a whole number of them. -/
def Num64.toUnits (n : Num64) : Int :=
  let mag : Nat := n.significand * 2 ^ (n.expo.val - 1)
  if n.neg then -(mag : Int) else (mag : Int)

/-- `toQ(x)`: the exact rational a `Num` denotes (00_scope.md R12). -/
def Num64.toQ (n : Num64) : Rat := (n.toUnits : Rat) / ((unitsPerOne : Nat) : Rat)

/-- The `Num` of a whole number of units, where there is one: a significand of at most 53 bits, within the
format's range. A zero is `+0.0`. -/
def Num64.ofUnits? (u : Int) : Option Num64 :=
  let mag := u.natAbs
  let neg := decide (u < 0)
  if mag < 2 ^ 52 then some ⟨neg, 0, BitVec.ofNat 52 mag⟩
  else
    let sh := mag.log2 - 52
    if h : sh + 1 < 2047 ∧ mag % 2 ^ sh = 0 then
      some ⟨neg, ⟨sh + 1, h.1⟩, BitVec.ofNat 52 (mag / 2 ^ sh)⟩
    else none

/-- The `Num` that denotes a rational exactly, where there is one. -/
def Num64.ofQ? (q : Rat) : Option Num64 :=
  let u := q * ((unitsPerOne : Nat) : Rat)
  if u.den = 1 then Num64.ofUnits? u.num else none

/-- A zero of either sign. -/
def Num64.isZero (n : Num64) : Bool := n.expo.val == 0 && n.frac == 0

/-- The same number with `-0.0` taken as 0 (45_filter.md R135: "`-0.0` is pushed as 0";
log 11). -/
def Num64.canon (n : Num64) : Num64 := if n.isZero then Num64.zero false else n

/-- The binary64 encoding of a `Num`. -/
def Num64.toBits (n : Num64) : F64 :=
  BitVec.ofBool n.neg ++ BitVec.ofNat 11 n.expo.val ++ n.frac

/-- The `Num` a binary64 field holds; none for a NaN or an infinity, whose exponent field is all ones
(30_encoding.md R67). -/
def Num64.ofBits? (v : F64) : Option Num64 :=
  if h : (v.extractLsb' 52 11).toNat < 2047 then
    some ⟨v.getLsbD 63, ⟨(v.extractLsb' 52 11).toNat, h⟩, v.extractLsb' 0 52⟩
  else none

/-- The binary64 encoding of a result. -/
def Value.toBits : Value → F64
  | .num n => n.toBits
  | .inf neg => BitVec.ofBool neg ++ (0x7FF : BitVec 11) ++ (0 : BitVec 52)

/-- The largest finite value of the format. -/
def maxFinite : Rat := (((2 ^ 53 - 1) * 2 ^ 971 : Nat) : Rat)

/-- Within the finite range of the format. -/
def inRange (q : Rat) : Bool := decide (-maxFinite ≤ q) && decide (q ≤ maxFinite)

/-- An infinity has the sign of an overflow: some of the given rationals lies past the largest finite value of that
sign (95_test_vectors.md V-COMP-8; log 18). -/
def limitInf (qs : List Rat) : Value → Value
  | .num n => .num n
  | .inf neg =>
    if qs.any (fun x => if neg then decide (x < -maxFinite) else decide (maxFinite < x)) then .inf neg
    else .inf (!neg)

/-- The result of one `numerics` function, from the intermediates of its evaluation order and its exact result
(00_scope.md R18): the exact value when all of them are values of the format; a finite value, not fixed by any
source, when they lie within the range; otherwise a value that may be an infinity
(47_arithmetic_control_access.md R148). It is never a NaN. The sign of an exact zero is free
(93_implementation_defined.md U11). -/
def realize (free : FreeResult) (steps : List Rat) (q : Rat) : Value :=
  match steps.all (fun x => (Num64.ofQ? x).isSome), Num64.ofQ? q with
  | true, some v => .num (if v.isZero then Num64.zero free.zeroNeg else v)
  | _, _ => if inRange q && steps.all inRange then .num free.finite else limitInf (q :: steps) free.any

namespace Machine

/-- The intermediates of the ambient conversion, in the order of 44_ambient.md R122. -/
def ambSteps (vref : Rat) (fullScale x : Nat) : List Rat :=
  [vref / (fullScale : Rat), (x : Rat) * (vref / (fullScale : Rat))]

/-- `ambC(x) = x * (VREF / FULL_SCALE) * 100` (44_ambient.md R122). -/
def ambExact (vref : Rat) (fullScale x : Nat) : Rat :=
  (x : Rat) * (vref / (fullScale : Rat)) * ambGain

/-- `numerics.amb` (44_ambient.md R122): exact where R18 fixes it, and free elsewhere, with no clamping (R124). The
sample 0 gives a zero, as R121 states, whatever `VREF / FULL_SCALE` is (log 17). -/
def numericsAmb (vref : Rat) (fullScale x : Nat) : Value :=
  if x = 0 then .num (Num64.zero (Config.numericsAmb vref fullScale x).zeroNeg)
  else realize (Config.numericsAmb vref fullScale x) (ambSteps vref fullScale x) (ambExact vref fullScale x)

/-- The running sums of a window from its oldest sample on, given the sum so far (45_filter.md R127). -/
def runningSums : Rat → List Num64 → List Rat
  | _, [] => []
  | acc, v :: w => (acc + v.toQ) :: runningSums (acc + v.toQ) w

/-- The sum of a window's samples, oldest first. -/
def windowSum (w : List Num64) : Rat := w.foldl (fun acc v => acc + v.toQ) 0

/-- `mean(w)` (45_filter.md R127). -/
def meanExact (w : List Num64) : Rat := windowSum w / (w.length : Rat)

/-- `numerics.mean` (45_filter.md R127). -/
def numericsMean (w : List Num64) : Value :=
  realize (Config.numericsMean w) (runningSums 0 w) (meanExact w)

/-- `comp(tc, amb) = toQ(tc) + (toQ(amb) - 25)` (46_compensation.md R138). -/
def compExact (tc amb : Num64) : Rat := tc.toQ + (amb.toQ - tRefC)

/-- `numerics.comp` (46_compensation.md R138): first `d = amb - 25.0`, then `tc + d`. -/
def numericsComp (tc amb : Num64) : Value :=
  realize (Config.numericsComp tc amb) [amb.toQ - tRefC] (compExact tc amb)

/-- The exact `Num` of a thermocouple count, `TCOUNT / 4` (30_encoding.md R75); every count of 13 bits has one, a zero
being `+0.0` (log 15). -/
def tcNum (count : Nat) : Num64 := (Num64.ofQ? ((count : Rat) * tcLsbC)).getD (Num64.zero false)

end Machine

end Sys2Proof
end

