-- ==== Sys2Proof/Machine/Operands.lean ====
section
/-! DEFINITION. The operand forms and the integer operations of the block
(47_arithmetic_control_access.md R142, R150). -/

namespace Sys2Proof.Machine

/-- The high nibble `v[7:4]` (R142 operation 2). -/
def highNibble (v : Byte) : BitVec 4 := v.extractLsb' 4 4

/-- The low nibble `v[3:0]` (R142 operation 2). -/
def lowNibble (v : Byte) : BitVec 4 := v.extractLsb' 0 4

/-- `ctrl(n, rs, en, bl)`, the control byte (30_encoding.md R68; R142 operation 1). -/
def ctrl (c : Config) (n : BitVec 4) (rs en bl : Bool) : Byte :=
  (n.setWidth 8 <<< 4) ||| (if rs then c.rsMask else 0) ||| (if en then c.enMask else 0) |||
    (if bl then c.blMask else 0)

/-- `ROW_OFFSET[row]` (00_scope.md R9). -/
def rowOffset (row : Byte) : Nat := [0x00, 0x40, 0x14, 0x54].getD row.toNat 0

/-- The set-DDRAM-address command byte of `(col, row)`: the sum reduced mod 128, bit 7 set (30_encoding.md R73;
R142 operations 7 and 8). -/
def ddramCommand (col row : Byte) : Byte :=
  0x80 ||| BitVec.ofNat 8 ((col.toNat + rowOffset row) % 128)

/-- The row bound test (R142 operation 11): `row >= s.lcd_rows`. The offset table ends at row 3, which the bound
implies wherever `s.lcd_rows <= 4` (42_lcd_operations.md R97; log 13). -/
def rowUndefined (lcdRows : Nat) (row : Byte) : Bool :=
  decide (lcdRows ≤ row.toNat) || decide (4 ≤ row.toNat)

/-- The operand check of 30_encoding.md R67: no field holds a NaN or an infinity. -/
def numsFinite (vs : List F64) : Bool := vs.all (fun v => (Num64.ofBits? v).isSome)

/-- The `Num` of an operand field that has passed `numsFinite`. -/
def numOperand (v : F64) : Num64 := (Num64.ofBits? v).getD (Num64.zero false)

/-- The payload bytes of a value (30_encoding.md R65). -/
def payloadOf (v : Value) : List Byte := leBytes v.toBits

/-- One clock's shift of the raw word, the old bit 15 discarded (R142 operation 3). -/
def shiftRaw (w : BitVec 16) : BitVec 16 := w <<< 1

/-- OR of a sampled bit into bit 0 (R142 operation 4). -/
def orSample (w : BitVec 16) (b : Bool) : BitVec 16 := if b then w ||| 0x0001 else w

/-- `TCOUNT = w >> 3` (30_encoding.md R74; R142 operation 6). -/
def tcCount (w : BitVec 16) : Nat := (w >>> tcShift).toNat

/-- The temperature payload of a raw word (43_thermocouple.md R116). -/
def tcTemperature (w : BitVec 16) : Num64 := tcNum (tcCount w)

end Sys2Proof.Machine
end

