-- ==== Sys2Proof/Machine/Ops.lean ====
section
/-! DEFINITION. The primitives of 00_scope.md R14 and the sequencer of 10_state.md R21: the named operations the
meanings are made of. The block has no trap mechanism (60_exceptions.md R167, R168): the outcomes of a command are
`respond`, `raiseUndefined` and a bus write that never returns. -/

namespace Sys2Proof.Machine

/-- Where a primitive leaves the Engine. -/
inductive Progress where
  /-- The Engine goes on with the next primitive. -/
  | go (s : State)
  /-- The Engine goes no further in this command: it has responded, raised `Undefined`, or its bus write never
  returns. -/
  | stop (s : State)
  deriving DecidableEq, Repr

/-- The state a flow ends in. -/
def Progress.state : Progress → State
  | .go s => s
  | .stop s => s

/-- One primitive after another (00_scope.md R16). -/
def Progress.andThen : Progress → (State → Progress) → Progress
  | .go s, f => f s
  | .stop s, _ => .stop s

/-- Primitives in the order written (00_scope.md R16). -/
def inOrder : List (State → Progress) → State → Progress
  | [], s => .go s
  | f :: fs, s => (f s).andThen (inOrder fs)

/-- Appends one event to the trace (10_state.md R38). -/
def State.emit (s : State) (e : Event) : State := { s with trace := s.trace ++ [e] }

/-- `s.seq <- q` (10_state.md R21). -/
def State.setSeq (s : State) (q : SeqPos) : State := { s with seq := q }

/-- `s.bl <- v`. -/
def State.setBl (s : State) (v : Bool) : State := { s with bl := v }

/-- `s.dcf <- v`. -/
def State.setDcf (s : State) (v : BitVec 3) : State := { s with dcf := v }

/-- The level of an output pin. -/
def State.setLevel (s : State) : Pin → Bool → State
  | .tcCs, v => { s with tcCs := v }
  | .tcSck, v => { s with tcSck := v }

/-- `s.tc_sr <- w`. -/
def State.setTcSr (s : State) (w : BitVec 16) : State := { s with tcSr := w }

/-- `s.win[TC] <- w`. -/
def State.setWinTc (s : State) (w : List Num64) : State := { s with winTc := w }

/-- `s.win[AMB] <- w`. -/
def State.setWinAmb (s : State) (w : List Num64) : State := { s with winAmb := w }

/-- Replaces the agents' inputs. -/
def State.setEnv (s : State) (e : Env) : State := { s with env := e }

/-- `refuse(reason)`: sets `s.refused`, which no step clears (60_exceptions.md R162). -/
def State.refuse (s : State) : State := { s with refused := true }

/-- A primitive that only changes the state. -/
def update (f : State → State) : State → Progress := fun s => .go (f s)

/-- `BusWrite(addr, b)`: the write is emitted; then it completes and the Engine goes on, or it never returns
(20_memory.md R47). The event of a write that never returns is in the trace (log 8). -/
def busWrite (addr : BitVec 7) (b : Byte) (s : State) : Progress :=
  let t := s.emit (.busWrite addr b)
  match s.env.busHang with
  | none => .go t
  | some 0 => .stop t
  | some (n + 1) => .go (t.setEnv { t.env with busHang := some n })

/-- `Wait(d)` (00_scope.md R14, R15). -/
def wait (d : Nat) : State → Progress := update (·.emit (.wait d))

/-- `SetPin(p, v)` with the block's copy of the level (10_state.md R27). -/
def setPin (p : Pin) (v : Bool) : State → Progress := update fun s => (s.emit (.setPin p v)).setLevel p v

/-- The level `SamplePin(TC_SO)` reads next: a draw of the chip (43_thermocouple.md R117; log 5). -/
def Env.tcBit (e : Env) : Bool :=
  match e.tcIn with
  | b :: _ => b
  | [] => Config.freeTcBit e.draws

/-- The inputs after one sample of `TC_SO`. -/
def Env.afterTc (e : Env) : Env := { e with tcIn := e.tcIn.drop 1, draws := e.draws + 1 }

/-- The value `AdcSample()` returns next: a draw of the ADC in `[0, FULL_SCALE]` (44_ambient.md R123). An entry
outside the domain is no move of the ADC, and the draw is then a free value of the domain (log 5). -/
def Env.adcDraw (e : Env) (fullScale : Nat) : Nat :=
  match e.adcIn with
  | x :: _ => if x ≤ fullScale then x else Config.freeAdc e.draws % (fullScale + 1)
  | [] => Config.freeAdc e.draws % (fullScale + 1)

/-- The inputs after one sample of the ADC. -/
def Env.afterAdc (e : Env) : Env := { e with adcIn := e.adcIn.drop 1, draws := e.draws + 1 }

/-- `SamplePin(TC_SO)`, the sample ORed into bit 0 of the shift register (43_thermocouple.md R112 step 4d). -/
def sampleTc : State → Progress := update fun s =>
  ((s.emit (.samplePin s.env.tcBit)).setTcSr (orSample s.tcSr s.env.tcBit)).setEnv s.env.afterTc

/-- `AdcSample()` (00_scope.md R14). -/
def sampleAdc : State → Progress := update fun s =>
  (s.emit (.adcSample (s.env.adcDraw s.cfg.fullScale))).setEnv s.env.afterAdc

/-- `Respond(status, payload)`: delivers the response and ends the command, `s.seq <- READY`
(00_scope.md R14, 10_state.md R21). -/
def respond (status : Byte) (payload : List Byte) : State → Progress :=
  fun s => .stop ((s.emit (.respond status payload)).setSeq .ready)

/-- Status `0x00` OK (30_encoding.md R66). -/
def statusOk : Byte := 0x00
/-- Status `0x01` SENSOR_FAULT (30_encoding.md R66). -/
def statusSensorFault : Byte := 0x01
/-- Status `0x80` ILLEGAL_OPCODE (30_encoding.md R66). -/
def statusIllegalOpcode : Byte := 0x80
/-- Status `0x81` BAD_OPERAND (30_encoding.md R66). -/
def statusBadOperand : Byte := 0x81

/-- `Respond(0x00, none)`. -/
def respondOk : State → Progress := respond statusOk []

/-- `raise Undefined(info)`: sets the sticky fault and records the first `info`; no event, no response, and the
Engine takes no further step (60_exceptions.md R161). -/
def raiseUndefined (info : UbInfo) : State → Progress := fun s =>
  .stop { s with ub := true, ubInfo := match s.ubInfo with
    | none => some info
    | some first => some first }

/-- The lines of command `op`'s rule from line `k` on, `s.seq` holding the line (10_state.md R21). -/
def runLines (op : Instr) : Nat → List (State → Progress) → State → Progress
  | _, [], s => .go s
  | k, f :: fs, s => (f (s.setSeq (.exec op k))).andThen (runLines op (k + 1) fs)

/-- A command: the lines of its rule from line 0 (10_state.md R21, 00_scope.md R16). -/
def command (op : Instr) (lines : List (State → Progress)) (s : State) : Host.Outcome State Fault Refusal :=
  .next (runLines op 0 lines s).state

/-- The `Num` check of 30_encoding.md R67: BAD_OPERAND ends the command before any event. -/
def checkNums (vs : List F64) : State → Progress :=
  fun s => if numsFinite vs then .go s else respond statusBadOperand [] s

/-- `NibbleTx(n, rs)` (40_lcd_transactions.md R81). -/
def nibbleTx (n : BitVec 4) (rs : Bool) : State → Progress := fun s =>
  let b := ctrl s.cfg n rs false s.bl
  inOrder [busWrite s.lcdAddr (b ||| s.cfg.enMask), wait enablePulseHold,
           busWrite s.lcdAddr b, wait enableSettle] s

/-- `ByteTx(v, rs)`: high nibble, then low nibble (40_lcd_transactions.md R83). -/
def byteTx (v : Byte) (rs : Bool) : State → Progress :=
  inOrder [nibbleTx (highNibble v) rs, nibbleTx (lowNibble v) rs]

/-- `DcfSend()` (42_lcd_operations.md R98). -/
def dcfSend : State → Progress := fun s => byteTx (displayControlByte s.dcf) false s

/-- The bare backlight-only bus write (30_encoding.md R69). -/
def backlightWrite : State → Progress := fun s => busWrite s.lcdAddr (ctrl s.cfg 0 false false s.bl) s

end Sys2Proof.Machine
end

