-- ==== Sys2Proof/Machine/Compensation.lean ====
section
/-! DEFINITION. `COMPENSATE` (46_compensation.md). -/

namespace Sys2Proof.Machine

/-- `COMPENSATE tc, amb` (R137). -/
def execCompensate (tc amb : F64) (s : State) : Host.Outcome State Fault Refusal :=
  command (.compensate tc amb)
    [checkNums [tc, amb],
     respond statusOk (payloadOf (numericsComp (numOperand tc) (numOperand amb)))] s

end Sys2Proof.Machine
end

