-- ==== Sys2Proof/Machine/Filter.lean ====
section
/-! DEFINITION. The moving-average filter: `FILT_PUSH_TC` and `FILT_PUSH_AMB` (45_filter.md). -/

namespace Sys2Proof.Machine

/-- The window after a push: the oldest sample dropped when it is full, then the new one at the end, as one
update (R126 steps 1 and 2). -/
def pushWindow (cap : Nat) (w : List Num64) (v : Num64) : List Num64 :=
  (if w.length = cap then w.drop 1 else w) ++ [v.canon]

/-- `Push(TC, v)` (R126). -/
def pushTc (v : Num64) : State → Progress := fun s =>
  let w := pushWindow s.cfg.nTc s.winTc v
  respond statusOk (payloadOf (numericsMean w)) (s.setWinTc w)

/-- `Push(AMB, v)` (R126). -/
def pushAmb (v : Num64) : State → Progress := fun s =>
  let w := pushWindow s.cfg.nAmb s.winAmb v
  respond statusOk (payloadOf (numericsMean w)) (s.setWinAmb w)

/-- `FILT_PUSH_TC v` (R135). -/
def execFiltPushTc (v : F64) (s : State) : Host.Outcome State Fault Refusal :=
  command (.filtPushTc v) [checkNums [v], pushTc (numOperand v)] s

/-- `FILT_PUSH_AMB v` (R136). -/
def execFiltPushAmb (v : F64) (s : State) : Host.Outcome State Fault Refusal :=
  command (.filtPushAmb v) [checkNums [v], pushAmb (numOperand v)] s

end Sys2Proof.Machine
end

