-- ==== Sys2Proof/Machine/LcdOperations.lean ====
section
/-! DEFINITION. Clear, home, set cursor, the display-control toggles and the backlight (42_lcd_operations.md). -/

namespace Sys2Proof.Machine

/-- `LCD_CLEAR` (R95). -/
def execLcdClear (s : State) : Host.Outcome State Fault Refusal :=
  command .lcdClear [byteTx cmdClear false, wait postClearDelay, respondOk] s

/-- `LCD_HOME` (R96). -/
def execLcdHome (s : State) : Host.Outcome State Fault Refusal :=
  command .lcdHome [byteTx cmdHome false, wait postHomeDelay, respondOk] s

/-- The row bound of `LCD_SETCURSOR`: an undefined row raises `Undefined` before any event (R97 line 1). -/
def checkRow (row : Byte) : State → Progress :=
  fun s => if rowUndefined s.lcdRows row then raiseUndefined (.setCursorRow row) s else .go s

/-- `LCD_SETCURSOR col, row` (R97). Line 2 only forms the sum, which line 3 sends. -/
def execLcdSetCursor (col row : Byte) (s : State) : Host.Outcome State Fault Refusal :=
  command (.lcdSetCursor col row)
    [checkRow row, update id, byteTx (ddramCommand col row) false, respondOk] s

/-- The lines every toggle has: write `s.dcf`, send it, respond (R98, R100 to R106). -/
def toggleLines (f : BitVec 3 → BitVec 3) : List (State → Progress) :=
  [update (fun s => s.setDcf (f s.dcf)), dcfSend, respondOk]

/-- `LCD_DISPLAY_ON` (R100). -/
def execLcdDisplayOn (s : State) : Host.Outcome State Fault Refusal :=
  command .lcdDisplayOn (toggleLines (setFlag · flagDisplay)) s

/-- `LCD_DISPLAY_OFF` (R101). -/
def execLcdDisplayOff (s : State) : Host.Outcome State Fault Refusal :=
  command .lcdDisplayOff (toggleLines (clearFlag · flagDisplay)) s

/-- `LCD_CURSOR_ON` (R102). -/
def execLcdCursorOn (s : State) : Host.Outcome State Fault Refusal :=
  command .lcdCursorOn (toggleLines (setFlag · flagCursor)) s

/-- `LCD_CURSOR_OFF` (R103). -/
def execLcdCursorOff (s : State) : Host.Outcome State Fault Refusal :=
  command .lcdCursorOff (toggleLines (clearFlag · flagCursor)) s

/-- `LCD_BLINK_ON` (R104). -/
def execLcdBlinkOn (s : State) : Host.Outcome State Fault Refusal :=
  command .lcdBlinkOn (toggleLines (setFlag · flagBlink)) s

/-- `LCD_BLINK_OFF` (R105). -/
def execLcdBlinkOff (s : State) : Host.Outcome State Fault Refusal :=
  command .lcdBlinkOff (toggleLines (clearFlag · flagBlink)) s

/-- The lines both backlight commands have (R107, R108). -/
def backlightLines (on : Bool) : List (State → Progress) :=
  [update (·.setBl on), backlightWrite, respondOk]

/-- `LCD_BACKLIGHT_ON` (R107). -/
def execLcdBacklightOn (s : State) : Host.Outcome State Fault Refusal :=
  command .lcdBacklightOn (backlightLines true) s

/-- `LCD_BACKLIGHT_OFF` (R108). -/
def execLcdBacklightOff (s : State) : Host.Outcome State Fault Refusal :=
  command .lcdBacklightOff (backlightLines false) s

end Sys2Proof.Machine
end

