-- ==== Sys2Proof/Machine/LcdTransactions.lean ====
section
/-! DEFINITION. `LCD_CMD` and `LCD_DATA` (40_lcd_transactions.md) and `LCD_INIT` (41_lcd_init.md). -/

namespace Sys2Proof.Machine

/-- `LCD_CMD b` (R85). -/
def execLcdCmd (b : Byte) (s : State) : Host.Outcome State Fault Refusal :=
  command (.lcdCmd b) [byteTx b false, respondOk] s

/-- `LCD_DATA b` (R86). -/
def execLcdData (b : Byte) (s : State) : Host.Outcome State Fault Refusal :=
  command (.lcdData b) [byteTx b true, respondOk] s

/-- `LCD_INIT` (R90): the nine states of R89, line `k` of the rule being state `k`. -/
def execLcdInit (s : State) : Host.Outcome State Fault Refusal :=
  command .lcdInit
    [inOrder [nibbleTx 0x3 false, wait initDelay1],
     inOrder [nibbleTx 0x3 false, wait initDelay2],
     inOrder [nibbleTx 0x3 false, wait initDelay3],
     nibbleTx 0x2 false,
     byteTx cmdFunctionSet false,
     inOrder [update (·.setDcf initFlags), dcfSend],
     inOrder [byteTx cmdClear false, wait postClearDelay],
     byteTx cmdEntryMode false,
     respondOk] s

end Sys2Proof.Machine
end

