-- ==== Sys2Proof/Machine/Reserved.lean ====
section
/-! DEFINITION. The reserved opcodes (30_encoding.md R76). -/

namespace Sys2Proof.Machine

/-- A reserved opcode responds ILLEGAL_OPCODE, with no other event and no state change (R76, 60_exceptions.md R159). -/
def execReserved (opc : Byte) (s : State) : Host.Outcome State Fault Refusal :=
  command (.reserved opc) [respond statusIllegalOpcode []] s

end Sys2Proof.Machine
end

