-- ==== Sys2Proof/Machine/Sensors.lean ====
section
/-! DEFINITION. `TC_READ` (43_thermocouple.md) and `AMB_READ` (44_ambient.md). -/

namespace Sys2Proof.Machine

/-- One clock of `TC_READ` (R112 steps 4a to 4f). -/
def tcClock : State → Progress := fun s =>
  inOrder [setPin .tcSck true, wait s.cfg.tcSckHighMin, update (fun t => t.setTcSr (shiftRaw t.tcSr)),
           sampleTc, setPin .tcSck false, wait s.cfg.tcSckLowMin] s

/-- `n` clocks (00_scope.md R17). -/
def tcClocks : Nat → State → Progress
  | 0, s => .go s
  | n + 1, s => (tcClock s).andThen (tcClocks n)

/-- The status of a read: SENSOR_FAULT when bit 2 of the raw word is set, whatever its other bits (R115). -/
def tcStatus (w : BitVec 16) : Byte := if sensorFault w then statusSensorFault else statusOk

/-- The payload of a read: none with SENSOR_FAULT, else the temperature (R115, R116). -/
def tcPayload (w : BitVec 16) : List Byte :=
  if sensorFault w then [] else payloadOf (.num (tcTemperature w))

/-- The result of a read (R112 step 6). -/
def tcResult : State → Progress := fun s => respond (tcStatus s.tcSr) (tcPayload s.tcSr) s

/-- `TC_READ` (R112). -/
def execTcRead (s : State) : Host.Outcome State Fault Refusal :=
  command .tcRead
    [setPin .tcCs false, wait tcCsSettle, update (·.setTcSr 0), tcClocks tcBits, setPin .tcCs true,
     tcResult] s

/-- `AMB_READ` (R121): the sample of line 1 is the `x` of line 2. -/
def execAmbRead (s : State) : Host.Outcome State Fault Refusal :=
  let x := s.env.adcDraw s.cfg.fullScale
  command .ambRead
    [sampleAdc, respond statusOk (payloadOf (numericsAmb s.cfg.vref s.cfg.fullScale x))] s

end Sys2Proof.Machine
end

