-- ==== Sys2Proof/Machine/Dispatch.lean ====
section
/-! DEFINITION. One command of the Engine: one arm per constructor of `Instr`. -/

namespace Sys2Proof.Machine

/-- The effect of a command from its first step to its response (00_scope.md R16, 60_exceptions.md R157). -/
def exec (i : Instr) (s : State) : Host.Outcome State Fault Refusal :=
  match i with
  | .lcdInit => Sys2Proof.Machine.execLcdInit s
  | .lcdCmd b => Sys2Proof.Machine.execLcdCmd b s
  | .lcdData b => Sys2Proof.Machine.execLcdData b s
  | .lcdClear => Sys2Proof.Machine.execLcdClear s
  | .lcdHome => Sys2Proof.Machine.execLcdHome s
  | .lcdSetCursor col row => Sys2Proof.Machine.execLcdSetCursor col row s
  | .lcdDisplayOn => Sys2Proof.Machine.execLcdDisplayOn s
  | .lcdDisplayOff => Sys2Proof.Machine.execLcdDisplayOff s
  | .lcdCursorOn => Sys2Proof.Machine.execLcdCursorOn s
  | .lcdCursorOff => Sys2Proof.Machine.execLcdCursorOff s
  | .lcdBlinkOn => Sys2Proof.Machine.execLcdBlinkOn s
  | .lcdBlinkOff => Sys2Proof.Machine.execLcdBlinkOff s
  | .lcdBacklightOn => Sys2Proof.Machine.execLcdBacklightOn s
  | .lcdBacklightOff => Sys2Proof.Machine.execLcdBacklightOff s
  | .tcRead => Sys2Proof.Machine.execTcRead s
  | .ambRead => Sys2Proof.Machine.execAmbRead s
  | .filtPushTc v => Sys2Proof.Machine.execFiltPushTc v s
  | .filtPushAmb v => Sys2Proof.Machine.execFiltPushAmb v s
  | .compensate tc amb => Sys2Proof.Machine.execCompensate tc amb s
  | .reserved opc => Sys2Proof.Machine.execReserved opc s

end Sys2Proof.Machine
end

