-- ==== Sys2Proof/Machine/Inputs.lean ====
section
/-! DEFINITION. Where the outside world meets the Engine: taking bytes from the command port, taking a reset, and
the moves of the agents outside the block (00_scope.md R7). `Step.lean` only calls these. -/

namespace Sys2Proof.Machine

/-- The command the Engine takes next from the port, with the state after its bytes are consumed
(30_encoding.md R78, 20_memory.md R60); none while the bytes are no whole command (log 7). -/
def fetch (s : State) : Option (Instr × State) :=
  match decode s.env.port with
  | .ok (i, rest) => some (i, s.setEnv { s.env with port := rest })
  | .error _ => none

/-- The reset event: every field to its reset value, no event emitted (70_reset_and_hazards.md R176, R177). The
configuration stays; the agents' inputs stay but for the reset request, which is served (log 3). -/
def resetEvent (s : State) : State :=
  (State.resetOf s.cfg).setEnv { s.env with resetReq := false }

/-- A reset request: served between commands, refused inside one (70_reset_and_hazards.md R179, R190). -/
def takeReset (s : State) : State :=
  if s.seq = .ready ∧ s.ub = false then resetEvent s
  else (s.setEnv { s.env with resetReq := false }).refuse

/-- Puts the one command a table word stands for in front of the bytes on the port. -/
def portWithCommand (nbits w : Nat) (s : State) : State :=
  s.setEnv { s.env with port := tableCommand nbits w ++ s.env.port }

/-- The Host sends bytes (00_scope.md R7). -/
def State.hostSends (bs : List Byte) (s : State) : State :=
  s.setEnv { s.env with port := s.env.port ++ bs }

/-- The Host asserts the reset input (70_reset_and_hazards.md R176). -/
def State.hostAsksReset (s : State) : State := s.setEnv { s.env with resetReq := true }

/-- The thermocouple chip's next levels (43_thermocouple.md R117). -/
def State.chipDrives (bs : List Bool) (s : State) : State :=
  s.setEnv { s.env with tcIn := s.env.tcIn ++ bs }

/-- The ADC's next samples (44_ambient.md R123). -/
def State.adcDelivers (xs : List Nat) (s : State) : State :=
  s.setEnv { s.env with adcIn := s.env.adcIn ++ xs }

/-- The Bus transport's choice of the write that never returns (20_memory.md R47). -/
def State.busChooses (h : Option Nat) (s : State) : State := s.setEnv { s.env with busHang := h }

end Sys2Proof.Machine
end

