-- ==== Sys2Proof/Machine/Step.lean ====
section
/-! DEFINITION. One step of the machine. -/

namespace Sys2Proof.Machine

/-- A refused run has no step (60_exceptions.md R162); a reset request is taken or refused
(70_reset_and_hazards.md R176, R179); after `Undefined` or in a hung command the Engine takes no step (R161, R163);
between commands it runs the next command of the port whole (20_memory.md R50, R54), or waits for bytes (log 7). -/
def step (s : State) : Host.Outcome State Fault Refusal :=
  if s.refused then .refused .runRefused
  else if s.env.resetReq then .next (takeReset s)
  else if s.ub then .fault (.undefinedBehaviour s.ubInfo)
  else match s.seq with
    | .exec _ _ => .fault .busHung
    | .ready =>
      match fetch s with
      | some (i, t) => exec i t
      | none => .next s

/-- The state with the command of a table word next on the port: how a program is given to the block (log 14). -/
def State.withFetchWord (s : State) (nbits w : Nat) : State := portWithCommand nbits w s

end Sys2Proof.Machine
end

