-- ==== Sys2Proof/Machine/Asm.lean ====
section
/-! DEFINITION. The assembler of the host side: the command syntax of 30_encoding.md R79 and the pseudo-instruction
`PRINT` of R80. A text it rejects is refused (60_exceptions.md R162). Texts are lists of characters (logs 10
and 16). -/

namespace Sys2Proof.Machine

/-- `PRINT "text"`: one `LCD_DATA c` per character, in order; a code above `0xFF` is rejected, and the empty text
expands to nothing (30_encoding.md R80, 42_lcd_operations.md R110). -/
def expandPrint : List Char → Option (List Instr)
  | [] => some []
  | c :: text =>
    if c.toNat ≤ 0xFF then (expandPrint text).map (.lcdData (BitVec.ofNat 8 c.toNat) :: ·)
    else none

/-- Drops leading blanks. -/
def skipBlanks : List Char → List Char := List.dropWhile (· == ' ')

/-- Drops blanks on both sides. -/
def trimBlanks (t : List Char) : List Char := (skipBlanks (skipBlanks t).reverse).reverse

/-- The pieces of a text between commas. -/
def splitCommas : List Char → List (List Char)
  | [] => [[]]
  | c :: t =>
    if c = ',' then [] :: splitCommas t
    else match splitCommas t with
      | [] => [[c]]
      | p :: ps => (c :: p) :: ps

/-- The operands of a line: none where only blanks follow the mnemonic. -/
def operandsOf (t : List Char) : List (List Char) :=
  match trimBlanks t with
  | [] => []
  | c :: rest => (splitCommas (c :: rest)).map trimBlanks

/-- The value of a digit in a base of at most 16. -/
def digitOf (base : Nat) (c : Char) : Option Nat :=
  let d := if '0' ≤ c ∧ c ≤ '9' then some (c.toNat - '0'.toNat)
    else if 'a' ≤ c ∧ c ≤ 'f' then some (c.toNat - 'a'.toNat + 10)
    else if 'A' ≤ c ∧ c ≤ 'F' then some (c.toNat - 'A'.toNat + 10)
    else none
  d.filter (· < base)

/-- Digits after those already read. -/
def digitsFrom (base : Nat) : Nat → List Char → Option Nat
  | acc, [] => some acc
  | acc, c :: t => match digitOf base c with
    | some d => digitsFrom base (acc * base + d) t
    | none => none

/-- A number of at least one digit. -/
def natOf (base : Nat) : List Char → Option Nat
  | [] => none
  | c :: t => digitsFrom base 0 (c :: t)

/-- An integer operand: decimal or `0x` hexadecimal, within a `u8` (30_encoding.md R79). -/
def byteOperand (t : List Char) : Option Byte :=
  let n := match t with
    | '0' :: 'x' :: h => natOf 16 h
    | _ => natOf 10 t
  (n.filter (· ≤ 0xFF)).map (BitVec.ofNat 8 ·)

/-- An unsigned decimal literal: digits, or digits, a point and digits (log 10). -/
def decimalOf (t : List Char) : Option Rat :=
  let whole := t.takeWhile (· != '.')
  match t.dropWhile (· != '.') with
  | [] => (natOf 10 whole).map fun n => (n : Rat)
  | _ :: part =>
    match natOf 10 whole, natOf 10 part with
    | some _, some _ => (natOf 10 (whole ++ part)).map fun n => (n : Rat) / ((10 ^ part.length : Nat) : Rat)
    | _, _ => none

/-- A `Num` operand: a decimal literal; one that is not exactly representable is rejected (30_encoding.md R79). -/
def f64Operand (t : List Char) : Option F64 :=
  match t with
  | '-' :: u => ((decimalOf u).bind Num64.ofQ?).map fun n => (Num64.toBits { n with neg := true })
  | _ => ((decimalOf t).bind Num64.ofQ?).map Num64.toBits

/-- The mnemonics and aliases of format `Z` (30_encoding.md R79). -/
def mnemonicsZ : List (String × Instr) :=
  [("LCD_INIT", .lcdInit), ("initialize", .lcdInit), ("LCD_CLEAR", .lcdClear), ("clear", .lcdClear),
   ("LCD_HOME", .lcdHome), ("home", .lcdHome), ("LCD_DISPLAY_ON", .lcdDisplayOn), ("display", .lcdDisplayOn),
   ("LCD_DISPLAY_OFF", .lcdDisplayOff), ("noDisplay", .lcdDisplayOff), ("LCD_CURSOR_ON", .lcdCursorOn),
   ("cursor", .lcdCursorOn), ("LCD_CURSOR_OFF", .lcdCursorOff), ("noCursor", .lcdCursorOff),
   ("LCD_BLINK_ON", .lcdBlinkOn), ("blink", .lcdBlinkOn), ("LCD_BLINK_OFF", .lcdBlinkOff),
   ("noBlink", .lcdBlinkOff)] ++
  [("LCD_BACKLIGHT_ON", .lcdBacklightOn), ("backlightOn", .lcdBacklightOn),
   ("LCD_BACKLIGHT_OFF", .lcdBacklightOff), ("backlightOff", .lcdBacklightOff),
   ("TC_READ", .tcRead), ("AMB_READ", .ambRead)]

/-- The mnemonics and aliases of format `B`. -/
def mnemonicsB : List (String × (Byte → Instr)) :=
  [("LCD_CMD", .lcdCmd), ("writeCommand", .lcdCmd), ("LCD_DATA", .lcdData), ("writeData", .lcdData)]

/-- The mnemonic and alias of format `CR`. -/
def mnemonicsCR : List (String × (Byte → Byte → Instr)) :=
  [("LCD_SETCURSOR", .lcdSetCursor), ("setCursor", .lcdSetCursor)]

/-- The mnemonics of format `N`. -/
def mnemonicsN : List (String × (F64 → Instr)) :=
  [("FILT_PUSH_TC", .filtPushTc), ("FILT_PUSH_AMB", .filtPushAmb)]

/-- The mnemonic of format `NN`. -/
def mnemonicsNN : List (String × (F64 → F64 → Instr)) := [("COMPENSATE", .compensate)]

/-- The entry of a mnemonic in a table. -/
def findMnemonic {α : Type} (m : List Char) : List (String × α) → Option α
  | [] => none
  | (name, x) :: rest => if name.toList = m then some x else findMnemonic m rest

/-- One command from its mnemonic and operands; none where the format and the operands do not agree. -/
def assembleCommand (m : List Char) (ops : List (List Char)) : Option Instr :=
  match ops with
  | [] => findMnemonic m mnemonicsZ
  | [x] =>
    match findMnemonic m mnemonicsB, findMnemonic m mnemonicsN with
    | some mk, _ => (byteOperand x).map mk
    | none, some mk => (f64Operand x).map mk
    | none, none => none
  | [x, y] =>
    match findMnemonic m mnemonicsCR, findMnemonic m mnemonicsNN with
    | some mk, _ => (byteOperand x).bind fun a => (byteOperand y).map (mk a)
    | none, some mk => (f64Operand x).bind fun a => (f64Operand y).map (mk a)
    | none, none => none
  | _ => none

/-- The text between the double quotes of `PRINT "text"`. -/
def quotedText (t : List Char) : Option (List Char) :=
  match trimBlanks t with
  | '"' :: rest =>
    match rest.reverse with
    | '"' :: body => some body.reverse
    | _ => none
  | _ => none

/-- The commands a line of assembly text stands for; none where the assembler rejects it (30_encoding.md R79,
R80). -/
def assemble (line : List Char) : Option (List Instr) :=
  let t := skipBlanks line
  let m := t.takeWhile (· != ' ')
  let rest := t.dropWhile (· != ' ')
  if "PRINT".toList = m then (quotedText rest).bind expandPrint
  else (assembleCommand m (operandsOf rest)).map ([·])

/-- The Host assembles a line and sends its bytes; a line the assembler rejects is refused
(60_exceptions.md R162). -/
def State.hostAssembles (line : List Char) (s : State) : State :=
  match assemble line with
  | some is => s.hostSends (is.flatMap encode)
  | none => s.refuse

end Sys2Proof.Machine
end

