-- ==== Sys2Proof/Safety.lean ====
section
/-! DEFINITION. The terms claims use: what a trace says, the event sequences the spec writes out, the protocols of
the two serial interfaces as predicates on traces, the invariant of the machine, and the end of a run. -/

namespace Sys2Proof.Machine

/-! ### Reading a trace -/

/-- The responses of a trace, in order (70_reset_and_hazards.md R192). -/
def responses : List Event → List (Byte × List Byte)
  | [] => []
  | .respond st p :: tr => (st, p) :: responses tr
  | .busWrite _ _ :: tr | .setPin _ _ :: tr | .samplePin _ :: tr | .adcSample _ :: tr | .wait _ :: tr =>
    responses tr

/-- The bytes of a trace's bus writes, in order. -/
def busBytes : List Event → List Byte
  | [] => []
  | .busWrite _ b :: tr => b :: busBytes tr
  | .respond _ _ :: tr | .setPin _ _ :: tr | .samplePin _ :: tr | .adcSample _ :: tr | .wait _ :: tr =>
    busBytes tr

/-- The number of bus writes in a trace. -/
def writeCount (tr : List Event) : Nat := (busBytes tr).length

/-- The sum of the minimum waits of a trace, in nanoseconds (00_scope.md R15). -/
def waitSum : List Event → Nat
  | [] => 0
  | .wait d :: tr => d + waitSum tr
  | .busWrite _ _ :: tr | .respond _ _ :: tr | .setPin _ _ :: tr | .samplePin _ :: tr | .adcSample _ :: tr =>
    waitSum tr

/-- Every event other than `Wait` has a time (00_scope.md R15). -/
def isTimed : Event → Bool
  | .wait _ => false
  | .busWrite _ _ | .respond _ _ | .setPin _ _ | .samplePin _ | .adcSample _ => true

/-- Times `t i` of the events of a trace that respect its waits: between two timed events at least the sum of the
waits between them elapses; there is no upper bound (00_scope.md R15). -/
def RespectsWaits (tr : List Event) (t : Nat → Nat) : Prop :=
  ∀ i j : Nat, i < j → (tr[i]?.map isTimed = some true) → (tr[j]?.map isTimed = some true) →
    t i + waitSum ((tr.drop i).take (j - i)) ≤ t j

/-! ### The event sequences of the rules -/

/-- The events of `NibbleTx(n, rs)` (40_lcd_transactions.md R81, R82). -/
def nibbleEvents (c : Config) (addr : BitVec 7) (bl : Bool) (n : BitVec 4) (rs : Bool) : List Event :=
  [.busWrite addr (ctrl c n rs true bl), .wait 1000, .busWrite addr (ctrl c n rs false bl), .wait 50000]

/-- The events of `ByteTx(v, rs)`: high nibble, then low nibble (40_lcd_transactions.md R83). -/
def byteEvents (c : Config) (addr : BitVec 7) (bl : Bool) (v : Byte) (rs : Bool) : List Event :=
  nibbleEvents c addr bl (v.extractLsb' 4 4) rs ++ nibbleEvents c addr bl (v.extractLsb' 0 4) rs

/-- The events of the initialization sequence before its response (41_lcd_init.md R89). -/
def initEvents (c : Config) (addr : BitVec 7) (bl : Bool) : List Event :=
  nibbleEvents c addr bl 0x3 false ++ [.wait 5000000] ++
  nibbleEvents c addr bl 0x3 false ++ [.wait 5000000] ++
  nibbleEvents c addr bl 0x3 false ++ [.wait 1000000] ++
  nibbleEvents c addr bl 0x2 false ++
  byteEvents c addr bl 0x28 false ++
  byteEvents c addr bl 0x0C false ++
  byteEvents c addr bl 0x01 false ++ [.wait 2000000] ++
  byteEvents c addr bl 0x06 false

/-- The events of one clock of `TC_READ` that samples `b` (43_thermocouple.md R112). -/
def clockEvents (c : Config) (b : Bool) : List Event :=
  [.setPin .tcSck true, .wait c.tcSckHighMin, .samplePin b, .setPin .tcSck false, .wait c.tcSckLowMin]

/-- The events of `TC_READ` before its response, for the sampled bits (43_thermocouple.md R112, R113). -/
def tcEvents (c : Config) (bits : List Bool) : List Event :=
  [.setPin .tcCs false, .wait 1000000] ++ bits.flatMap (clockEvents c) ++ [.setPin .tcCs true]

/-- The next `n` levels the thermocouple chip gives. -/
def tcSamples : Nat → Env → List Bool
  | 0, _ => []
  | n + 1, e => e.tcBit :: tcSamples n e.afterTc

/-- The inputs after `n` samples of `TC_SO`. -/
def afterSamples : Nat → Env → Env
  | 0, e => e
  | n + 1, e => afterSamples n e.afterTc

/-- The sixteen levels the next `TC_READ` samples. -/
def readBits (s : State) : List Bool := tcSamples 16 s.env

/-- The word whose bit 15 is the first bit (20_memory.md R42). -/
def wordOfBits (bits : List Bool) : BitVec 16 :=
  bits.foldl (fun w b => (w <<< 1) ||| (if b then 1 else 0)) 0

/-! ### The Bus transport's draws -/

/-- The next `n` bus writes all complete. -/
def busAllows (n : Nat) (e : Env) : Prop :=
  match e.busHang with
  | none => True
  | some k => n ≤ k

/-- The inputs after `n` bus writes that completed. -/
def Env.afterWrites (n : Nat) (e : Env) : Env := { e with busHang := e.busHang.map (· - n) }

/-- A trace cut after its `k`-th bus write, counted from 0: what is emitted when that write never returns. -/
def upToWrite : Nat → List Event → List Event
  | _, [] => []
  | 0, .busWrite a b :: _ => [.busWrite a b]
  | k + 1, .busWrite a b :: tr => .busWrite a b :: upToWrite k tr
  | k, .wait d :: tr => .wait d :: upToWrite k tr
  | k, .setPin p v :: tr => .setPin p v :: upToWrite k tr
  | k, .samplePin v :: tr => .samplePin v :: upToWrite k tr
  | k, .adcSample x :: tr => .adcSample x :: upToWrite k tr
  | k, .respond st p :: tr => .respond st p :: upToWrite k tr

/-! ### The protocols -/

/-- Where a trace leaves the display interface. -/
inductive LcdPhase where
  /-- No nibble transaction is open. -/
  | idle
  /-- The Enable-high write of byte `b` has been made. -/
  | high (b : Byte)
  /-- Its minimum hold has passed. -/
  | held (b : Byte)
  /-- The Enable-low write has been made. -/
  | low
  deriving DecidableEq, Repr

/-- A byte the block may write: its bits of 3:0 that are no mask, the R/W line among them, are 0
(30_encoding.md R68). -/
def writesOnly (c : Config) (b : Byte) : Bool :=
  b &&& (0x0F &&& ~~~(c.rsMask ||| c.enMask ||| c.blMask)) == 0

/-- The display interface's rules, event by event: an Enable-high write is followed by its hold of at least 1 us,
the same byte with Enable low, and its hold of at least 50 us, with nothing in between
(70_reset_and_hazards.md R182, R187); any other write is backlight-only (30_encoding.md R69). -/
def lcdNext (c : Config) : LcdPhase → Event → Option LcdPhase
  | .idle, .busWrite a b =>
    if a = c.lcdAddr ∧ writesOnly c b = true then
      if b &&& c.enMask ≠ 0 then some (.high b)
      else if b = 0 ∨ b = c.blMask then some .idle else none
    else none
  | .idle, .wait _ | .idle, .setPin _ _ | .idle, .samplePin _ | .idle, .adcSample _ | .idle, .respond _ _ =>
    some .idle
  | .high b, .wait d => if 1000 ≤ d then some (.held b) else none
  | .high _, .busWrite _ _ | .high _, .setPin _ _ | .high _, .samplePin _ | .high _, .adcSample _
  | .high _, .respond _ _ => none
  | .held b, .busWrite a b' => if a = c.lcdAddr ∧ b' = b &&& ~~~c.enMask then some .low else none
  | .held _, .wait _ | .held _, .setPin _ _ | .held _, .samplePin _ | .held _, .adcSample _
  | .held _, .respond _ _ => none
  | .low, .wait d => if 50000 ≤ d then some .idle else none
  | .low, .busWrite _ _ | .low, .setPin _ _ | .low, .samplePin _ | .low, .adcSample _
  | .low, .respond _ _ => none

/-- The phase a trace leaves the display interface in; none where it breaks the rules. -/
def lcdMonitor (c : Config) (p : LcdPhase) : List Event → Option LcdPhase
  | [] => some p
  | e :: tr => (lcdNext c p e).bind fun q => lcdMonitor c q tr

/-- Where a trace leaves the thermocouple interface. -/
inductive TcPhase where
  /-- The chip is deselected. -/
  | idle
  /-- The chip is selected and its settle time has not passed. -/
  | selected
  /-- The clock is low after `n` clocks. -/
  | low (n : Nat)
  /-- The clock is high in clock `n`, sampled or not. -/
  | high (n : Nat) (sampled : Bool)
  deriving DecidableEq, Repr

/-- The thermocouple interface's rules, event by event: exactly 16 clocks, one sample while each is high, the
first edge at least 1 ms after selection, and no other event inside a read (43_thermocouple.md R113, R118;
70_reset_and_hazards.md R187, R188). -/
def tcNext : TcPhase → Event → Option TcPhase
  | .idle, .setPin .tcCs false => some .selected
  | .idle, .busWrite _ _ | .idle, .adcSample _ | .idle, .wait _ | .idle, .respond _ _ => some .idle
  | .idle, .setPin .tcCs true | .idle, .setPin .tcSck _ | .idle, .samplePin _ => none
  | .selected, .wait d => if 1000000 ≤ d then some (.low 0) else none
  | .selected, .busWrite _ _ | .selected, .setPin _ _ | .selected, .samplePin _ | .selected, .adcSample _
  | .selected, .respond _ _ => none
  | .low n, .setPin .tcSck true => if n < 16 then some (.high n false) else none
  | .low n, .setPin .tcCs true => if n = 16 then some .idle else none
  | .low n, .wait _ => some (.low n)
  | .low _, .setPin .tcSck false | .low _, .setPin .tcCs false | .low _, .busWrite _ _ | .low _, .samplePin _
  | .low _, .adcSample _ | .low _, .respond _ _ => none
  | .high n false, .samplePin _ => some (.high n true)
  | .high _ true, .samplePin _ => none
  | .high n true, .setPin .tcSck false => some (.low (n + 1))
  | .high _ false, .setPin .tcSck false => none
  | .high n b, .wait _ => some (.high n b)
  | .high _ _, .setPin .tcSck true | .high _ _, .setPin .tcCs _ | .high _ _, .busWrite _ _
  | .high _ _, .adcSample _ | .high _ _, .respond _ _ => none

/-- The phase a trace leaves the thermocouple interface in; none where it breaks the rules. -/
def tcMonitor (p : TcPhase) : List Event → Option TcPhase
  | [] => some p
  | e :: tr => (tcNext p e).bind fun q => tcMonitor q tr

/-! ### The invariant -/

/-- What holds of the registers at every command boundary. -/
structure RegsOk (s : State) : Prop where
  /-- A configuration outside its ranges is refused (60_exceptions.md R162). -/
  cfgOk     : configValid s.cfg = true ∨ s.refused = true
  /-- The DisplayState parameters are those of construction (10_state.md R22, R23). -/
  addrOk    : s.lcdAddr = s.cfg.lcdAddr
  colsOk    : s.lcdCols = s.cfg.cols
  rowsOk    : s.lcdRows = s.cfg.rows
  /-- The windows never exceed their capacity (10_state.md R31). -/
  winTcOk   : s.winTc.length ≤ s.cfg.nTc
  winAmbOk  : s.winAmb.length ≤ s.cfg.nAmb
  /-- No window holds `-0.0` (45_filter.md R135). -/
  winTcCan  : ∀ v ∈ s.winTc, v.canon = v
  winAmbCan : ∀ v ∈ s.winAmb, v.canon = v
  /-- The converter is deselected and its clock low (10_state.md R27). -/
  csHigh    : s.tcCs = true
  sckLow    : s.tcSck = false
  /-- `s.ub_info` is the first `info` (10_state.md R36). -/
  ubInfoOk  : s.ub = s.ubInfo.isSome
  /-- After `Undefined` the Engine is not ready (60_exceptions.md R161, R168). -/
  ubStuck   : s.ub = true → s.seq ≠ .ready

/-- What holds of the trace at every command boundary: both interfaces' rules are kept, no transaction is open when
the Engine is ready, and a command that has not responded hangs in a bus write or is undefined. -/
structure TraceOk (s : State) : Prop where
  /-- The display's rules are kept, and no nibble transaction is open between commands (20_memory.md R50). -/
  lcdOk : ∃ p, lcdMonitor s.cfg .idle s.trace = some p ∧ (s.seq = .ready → p = .idle)
  /-- The thermocouple's rules are kept, and no read is open (43_thermocouple.md R118). -/
  tcOk  : tcMonitor .idle s.trace = some .idle
  /-- A command without a response is undefined or hangs in a bus write (60_exceptions.md R157), which is the last
  event of the trace (log 8). -/
  stuck : s.seq ≠ .ready → s.ub = true ∨ ∃ tr a b, s.trace = tr ++ [.busWrite a b]

/-- The invariant of the machine. -/
structure Invariant (s : State) : Prop where
  /-- Its registers. -/
  regs  : RegsOk s
  /-- Its trace. -/
  trace : TraceOk s

/-! ### The end of a run -/

/-- The Host has received the response of its last command, and the run is finished (70_reset_and_hazards.md
R192). -/
def Finished (s : State) : Prop :=
  s.seq = .ready ∧ s.env.port = [] ∧ s.env.resetReq = false ∧ s.ub = false ∧ s.refused = false

/-- The observation of a finished run: its trace, its responses and its final state
(70_reset_and_hazards.md R192). -/
def observation (s : State) : List Event × List (Byte × List Byte) × State :=
  (s.trace, responses s.trace, s)

/-- A command as the Host issued it, with the times of its start and of its response, in nanoseconds. -/
structure Issued where
  cmd   : Instr
  start : Nat
  stop  : Nat
  deriving DecidableEq, Repr

/-- The commands of the LCD engine (30_encoding.md R63, R64). -/
def isLcd : Instr → Bool
  | .lcdInit | .lcdCmd _ | .lcdData _ | .lcdClear | .lcdHome | .lcdSetCursor _ _ | .lcdDisplayOn | .lcdDisplayOff
  | .lcdCursorOn | .lcdCursorOff | .lcdBlinkOn | .lcdBlinkOff | .lcdBacklightOn | .lcdBacklightOff => true
  | .tcRead | .ambRead | .filtPushTc _ | .filtPushAmb _ | .compensate _ _ | .reserved _ => false

/-- The gap the Host owes after a raw clear or home (70_reset_and_hazards.md R184). -/
def rawClearGaps : List Issued → Bool
  | [] => true
  | a :: rest =>
    (match a.cmd with
      | .lcdCmd b =>
        if b = 0x01 ∨ b = 0x02 then
          (match rest.find? (fun x => isLcd x.cmd) with
            | some nxt => decide (a.stop + 2000000 ≤ nxt.start)
            | none => true)
        else true
      | _ => true) && rawClearGaps rest

/-- The Host's duties before the display can be said to work, which the block does not enforce: `T_POWERUP` after
power-on, `LCD_INIT` before any other LCD command, and the gap after a raw clear or home
(70_reset_and_hazards.md R180, R184). -/
def HostDuties (c : Config) (powerOn : Nat) (l : List Issued) : Prop :=
  (match l.find? (fun x => isLcd x.cmd) with
    | some first => first.cmd = .lcdInit ∧ powerOn + c.tPowerup ≤ first.start
    | none => True) ∧
  rawClearGaps l = true

end Sys2Proof.Machine
end

