-- ==== Sys2Proof/Certificates/Slice0/Obligations.lean ====
section
/-! DEFINITION. The statements for the provers. Each docstring names the rule of spec/ it formalises. -/

namespace Sys2Proof.Machine

/-! ### Shared shapes of the statements -/

/-- The state a command of the LCD engine leaves when its bus writes all complete: its events, the response
`0x00` with no payload, the Engine ready; `bl` and `dcf` as given, all else as before. -/
def lcdDone (s : State) (bl : Bool) (dcf : BitVec 3) (evs : List Event) : State :=
  { s with
    seq := .ready, bl := bl, dcf := dcf,
    trace := s.trace ++ evs ++ [.respond 0x00 []], env := s.env.afterWrites (writeCount evs) }

/-- The state a command with no event but its response leaves, given the windows after it. -/
def quietDone (s : State) (winTc winAmb : List Num64) (status : Byte) (payload : List Byte) : State :=
  { s with
    seq := .ready, winTc := winTc, winAmb := winAmb, trace := s.trace ++ [.respond status payload] }

/-- A binary64 field that holds a NaN or an infinity: its exponent field is all ones (30_encoding.md R67). -/
def notFinite (v : F64) : Prop := v.extractLsb' 52 11 = 0x7FF#11

/-- `Sys2Proof.Machine.exec` over a list of commands, from one next state to the next; a command that answers none
leaves the state as it is. -/
def execAll : List Instr → State → State
  | [], s => s
  | i :: is, s =>
    match exec i s with
    | .next t => execAll is t
    | .fault _ => s
    | .refused _ => s

/-- The flags of `s.dcf` after a command (42_lcd_operations.md R99 to R105, 41_lcd_init.md R90). -/
def flagsAfter (i : Instr) (dcf : BitVec 3) : BitVec 3 :=
  match i with
  | .lcdInit => 0b100
  | .lcdDisplayOn => dcf ||| 0b100
  | .lcdDisplayOff => dcf &&& 0b011
  | .lcdCursorOn => dcf ||| 0b010
  | .lcdCursorOff => dcf &&& 0b101
  | .lcdBlinkOn => dcf ||| 0b001
  | .lcdBlinkOff => dcf &&& 0b110
  | _ => dcf

/-- The backlight flag after a command (42_lcd_operations.md R107, R108). -/
def backlightAfter (i : Instr) (bl : Bool) : Bool :=
  match i with
  | .lcdBacklightOn => true
  | .lcdBacklightOff => false
  | _ => bl

/-- The row offset of 00_scope.md R9 for the four rows of the table. -/
def offsetOfRow (row : Byte) : Nat :=
  if row = 0 then 0x00 else if row = 1 then 0x40 else if row = 2 then 0x14 else 0x54

/-- The events, before its response, of a command of the LCD engine when its bus writes all complete; none for
another command. -/
def lcdScript (s : State) (i : Instr) : List Event :=
  match i with
  | .lcdInit => initEvents s.cfg s.lcdAddr s.bl
  | .lcdCmd b => byteEvents s.cfg s.lcdAddr s.bl b false
  | .lcdData b => byteEvents s.cfg s.lcdAddr s.bl b true
  | .lcdClear => byteEvents s.cfg s.lcdAddr s.bl 0x01 false ++ [.wait 2000000]
  | .lcdHome => byteEvents s.cfg s.lcdAddr s.bl 0x02 false ++ [.wait 2000000]
  | .lcdSetCursor col row =>
    byteEvents s.cfg s.lcdAddr s.bl (0x80 ||| BitVec.ofNat 8 ((col.toNat + offsetOfRow row) % 128)) false
  | .lcdDisplayOn | .lcdDisplayOff | .lcdCursorOn | .lcdCursorOff | .lcdBlinkOn | .lcdBlinkOff =>
    byteEvents s.cfg s.lcdAddr s.bl (0x08 ||| (flagsAfter i s.dcf).setWidth 8) false
  | .lcdBacklightOn => [.busWrite s.lcdAddr s.cfg.blMask]
  | .lcdBacklightOff => [.busWrite s.lcdAddr 0x00]
  | .tcRead | .ambRead | .filtPushTc _ | .filtPushAmb _ | .compensate _ _ | .reserved _ => []

/-- The line of a command's rule, from 0, that holds its `k`-th bus write (10_state.md R21, 41_lcd_init.md R89). -/
def lineOfWrite (i : Instr) (k : Nat) : Nat :=
  match i with
  | .lcdInit =>
    if k < 2 then 0 else if k < 4 then 1 else if k < 6 then 2 else if k < 8 then 3
    else if k < 12 then 4 else if k < 16 then 5 else if k < 20 then 6 else 7
  | .lcdSetCursor _ _ => 2
  | .lcdDisplayOn | .lcdDisplayOff | .lcdCursorOn | .lcdCursorOff | .lcdBlinkOn | .lcdBlinkOff
  | .lcdBacklightOn | .lcdBacklightOff => 1
  | _ => 0

/-- The flags a command has written when its `k`-th bus write is made: `LCD_INIT` writes them in its line 5. -/
def flagsAtWrite (i : Instr) (k : Nat) (dcf : BitVec 3) : BitVec 3 :=
  match i with
  | .lcdInit => if k < 12 then dcf else 0b100
  | _ => flagsAfter i dcf

/-- A `LCD_SETCURSOR` whose row is undefined (42_lcd_operations.md R97). -/
def undefinedRow (s : State) (i : Instr) : Prop :=
  match i with
  | .lcdSetCursor _ row => s.lcdRows ≤ row.toNat
  | _ => False

/-- The table of 70_reset_and_hazards.md R191: the bus writes of a command that responds OK, and its minimum
duration in nanoseconds. -/
def durationTable (c : Config) : Instr → Nat × Nat
  | .lcdInit => (24, 13612000)
  | .lcdCmd _ | .lcdData _ | .lcdSetCursor _ _ | .lcdDisplayOn | .lcdDisplayOff | .lcdCursorOn
  | .lcdCursorOff | .lcdBlinkOn | .lcdBlinkOff => (4, 102000)
  | .lcdClear | .lcdHome => (4, 2102000)
  | .lcdBacklightOn | .lcdBacklightOff => (1, 0)
  | .tcRead => (0, 1000000 + 16 * (c.tcSckHighMin + c.tcSckLowMin))
  | .ambRead | .filtPushTc _ | .filtPushAmb _ | .compensate _ _ | .reserved _ => (0, 0)

end Sys2Proof.Machine

open Sys2Proof Sys2Proof.Machine

/-! ### Encoding -/

/-- Decode and encode agree on every command, with every operand value and any bytes behind it (30_encoding.md
R62, R64, R77; 20_memory.md R43). -/
def Obligations.DecodeOfEncodeIsTheCommand : Prop :=
  ∀ (i : Instr) (rest : List Byte), WellFormed i = true → decode (encode i ++ rest) = .ok (i, rest)

/-- The other direction: what decodes to a command is that command's bytes and the rest, and the command is well
formed (30_encoding.md R62, R64, R76). -/
def Obligations.EncodeOfDecodeIsTheBytes : Prop :=
  ∀ (bs : List Byte) (i : Instr) (rest : List Byte), decode bs = .ok (i, rest) →
    WellFormed i = true ∧ encode i ++ rest = bs

/-- 30_encoding.md R78: the opcode fixes the length, 1 for format Z and for reserved opcodes, 2, 3, 9, 17: a decoder
takes exactly the bytes of the format, whatever they are and whatever follows. -/
def Obligations.OpcodeFixesTheLength : Prop :=
  (∀ (opc : Byte) (bs : List Byte), (formatOf opc).length ≤ bs.length + 1 →
    ∃ i, decode (opc :: bs) = .ok (i, bs.drop ((formatOf opc).length - 1))) ∧
  (∀ opc : Byte, opc ∉ definedOpcodes → (formatOf opc).length = 1) ∧
  definedOpcodes.map (fun opc => (formatOf opc).length) =
    [1, 2, 2, 1, 1, 3, 1, 1, 1, 1, 1, 1, 1, 1, 1, 1, 9, 9, 17]

/-- 30_encoding.md R64, R76: the words of the spec's examples decode to the commands they stand for. -/
def Obligations.SpecWordsDecode : Prop :=
  decode [0x10] = .ok (.lcdInit, []) ∧
  decode [0x11, 0x28] = .ok (.lcdCmd 0x28, []) ∧
  decode [0x12, 0x41, 0xFF] = .ok (.lcdData 0x41, [0xFF]) ∧
  decode [0x15, 0x03, 0x01] = .ok (.lcdSetCursor 3 1, []) ∧
  decode [0x20] = .ok (.tcRead, []) ∧
  decode [0x30] = .ok (.ambRead, []) ∧
  decode [0x40, 0x00, 0x00, 0x00, 0x00, 0x00, 0x00, 0xF0, 0x3F] = .ok (.filtPushTc 0x3FF0000000000000, []) ∧
  decode [0x50, 0, 0, 0, 0, 0, 0, 0x59, 0x40, 0, 0, 0, 0, 0, 0, 0x3E, 0x40] =
    .ok (.compensate 0x4059000000000000 0x403E000000000000, []) ∧
  decode [0xFF, 0x12, 0x41] = .ok (.reserved 0xFF, [0x12, 0x41])

/-- 30_encoding.md R63: the high nibble of a defined opcode names its sub-unit. -/
def Obligations.OpcodeHighNibbleNamesTheSubUnit : Prop :=
  definedOpcodes.map subUnitOf =
    List.replicate 14 (some .lcd) ++
      [some .thermocouple, some .ambient, some .filter, some .filter, some .compensation]

/-! ### The step -/

/-- Between commands the Engine takes the next command of the port whole: a step is `exec` of the decoded command,
its bytes consumed (00_scope.md R16, 20_memory.md R54, R60). -/
def Obligations.StepRunsTheDecodedCommand : Prop :=
  ∀ (s : State) (i : Instr) (rest : List Byte),
    s.refused = false → s.env.resetReq = false → s.ub = false → s.seq = .ready →
    decode s.env.port = .ok (i, rest) →
    step s = exec i { s with env := { s.env with port := rest } }

/-- The model's choice (log 7): while the port holds no byte, or fewer than its first opcode's format asks for, the
Engine waits, and a step changes nothing. -/
def Obligations.StepWaitsForAWholeCommand : Prop :=
  ∀ s : State, s.refused = false → s.env.resetReq = false → s.ub = false → s.seq = .ready →
    (s.env.port = [] ∨
      ∃ (opc : Byte) (bs : List Byte), s.env.port = opc :: bs ∧ bs.length + 1 < (formatOf opc).length) →
    step s = .next s

/-- The Engine takes no further step after `Undefined` (60_exceptions.md R161) and in a hung command (R163). -/
def Obligations.StuckEngineTakesNoStep : Prop :=
  (∀ s : State, s.refused = false → s.env.resetReq = false → s.ub = true →
    step s = .fault (.undefinedBehaviour s.ubInfo)) ∧
  (∀ (s : State) (op : Instr) (k : Nat), s.refused = false → s.env.resetReq = false → s.ub = false →
    s.seq = .exec op k → step s = .fault .busHung)

/-! ### The LCD engine -/

/-- The fields of the control byte for masks as 30_encoding.md R68 requires them: the nibble in 7:4, each mask's
bit as its argument says, every other bit of 3:0 zero (R68; 20_memory.md R41). -/
def Obligations.ControlByteFields : Prop :=
  ∀ (c : Config) (n : BitVec 4) (rs en bl : Bool), masksValid c = true →
    (ctrl c n rs en bl).extractLsb' 4 4 = n ∧
    (ctrl c n rs en bl &&& c.rsMask = if rs then c.rsMask else 0) ∧
    (ctrl c n rs en bl &&& c.enMask = if en then c.enMask else 0) ∧
    (ctrl c n rs en bl &&& c.blMask = if bl then c.blMask else 0) ∧
    ctrl c n rs en bl &&& (0x0F &&& ~~~(c.rsMask ||| c.enMask ||| c.blMask)) = 0

/-- 40_lcd_transactions.md R83: a byte transfer whose writes complete is four bus writes, high nibble first, each
nibble Enable high then low, with at least 102 us of waits. -/
def Obligations.ByteTransferIsFourWrites : Prop :=
  ∀ (s : State) (v : Byte) (rs : Bool), busAllows 4 s.env →
    ∃ t, byteTx v rs s = .go t ∧
      t = { s with trace := s.trace ++ byteEvents s.cfg s.lcdAddr s.bl v rs, env := s.env.afterWrites 4 } ∧
      busBytes (byteEvents s.cfg s.lcdAddr s.bl v rs) =
        [ctrl s.cfg (v.extractLsb' 4 4) rs true s.bl, ctrl s.cfg (v.extractLsb' 4 4) rs false s.bl,
         ctrl s.cfg (v.extractLsb' 0 4) rs true s.bl, ctrl s.cfg (v.extractLsb' 0 4) rs false s.bl] ∧
      waitSum (byteEvents s.cfg s.lcdAddr s.bl v rs) = 102000

/-- 40_lcd_transactions.md R85: `LCD_CMD b` sends `b` with RS = 0 and responds OK; nothing else changes. -/
def Obligations.LcdCmdSendsACommandByte : Prop :=
  ∀ (s : State) (b : Byte), busAllows 4 s.env →
    exec (.lcdCmd b) s = .next (lcdDone s s.bl s.dcf (byteEvents s.cfg s.lcdAddr s.bl b false))

/-- 40_lcd_transactions.md R86: `LCD_DATA b` sends `b` with RS = 1 and responds OK; nothing else changes. -/
def Obligations.LcdDataSendsADataByte : Prop :=
  ∀ (s : State) (b : Byte), busAllows 4 s.env →
    exec (.lcdData b) s = .next (lcdDone s s.bl s.dcf (byteEvents s.cfg s.lcdAddr s.bl b true))

/-- 41_lcd_init.md R90: the initialization sequence, 24 writes and at least 13.612 ms of waits, sets `s.dcf` and
leaves `s.bl`. -/
def Obligations.LcdInitRunsTheSequence : Prop :=
  ∀ s : State, busAllows 24 s.env →
    exec .lcdInit s = .next (lcdDone s s.bl 0b100 (initEvents s.cfg s.lcdAddr s.bl)) ∧
    writeCount (initEvents s.cfg s.lcdAddr s.bl) = 24 ∧
    waitSum (initEvents s.cfg s.lcdAddr s.bl) = 13612000

/-- 42_lcd_operations.md R95, R96: clear and home send their byte and wait 2 ms before the response. -/
def Obligations.LcdClearAndHomeSendAndWait : Prop :=
  ∀ s : State, busAllows 4 s.env →
    exec .lcdClear s =
      .next (lcdDone s s.bl s.dcf (byteEvents s.cfg s.lcdAddr s.bl 0x01 false ++ [.wait 2000000])) ∧
    exec .lcdHome s =
      .next (lcdDone s s.bl s.dcf (byteEvents s.cfg s.lcdAddr s.bl 0x02 false ++ [.wait 2000000]))

/-- 42_lcd_operations.md R97: a row of the display sends the set-DDRAM-address command of `col + ROW_OFFSET[row]`
reduced mod 128, `col` unchecked; a row past it raises `Undefined` before any event, with no response. The bound
`s.lcdRows ≤ 4` is R23's. -/
def Obligations.LcdSetCursorSendsTheAddress : Prop :=
  (∀ (s : State) (col row : Byte), busAllows 4 s.env → s.lcdRows ≤ 4 → row.toNat < s.lcdRows →
    exec (.lcdSetCursor col row) s = .next (lcdDone s s.bl s.dcf
      (byteEvents s.cfg s.lcdAddr s.bl (0x80 ||| BitVec.ofNat 8 ((col.toNat + offsetOfRow row) % 128)) false))) ∧
  (∀ (s : State) (col row : Byte), s.lcdRows ≤ row.toNat →
    exec (.lcdSetCursor col row) s = .next { s with
      seq := .exec (.lcdSetCursor col row) 0, ub := true,
      ubInfo := if s.ubInfo = none then some (.setCursorRow row) else s.ubInfo })

/-- 42_lcd_operations.md R100 to R106: each toggle sets or clears its one bit and re-sends all three flags,
changed or not. -/
def Obligations.TogglesWriteOneFlagAndResend : Prop :=
  ∀ (s : State) (i : Instr),
    i ∈ [.lcdDisplayOn, .lcdDisplayOff, .lcdCursorOn, .lcdCursorOff, .lcdBlinkOn, .lcdBlinkOff] →
    busAllows 4 s.env →
    exec i s = .next (lcdDone s s.bl (flagsAfter i s.dcf)
      (byteEvents s.cfg s.lcdAddr s.bl (0x08 ||| (flagsAfter i s.dcf).setWidth 8) false))

/-- 42_lcd_operations.md R99, R107, R108, R69: the backlight commands write the flag and make one bare write, the
backlight mask or 0, with no wait. -/
def Obligations.BacklightCommandsWriteOnce : Prop :=
  ∀ s : State, busAllows 1 s.env →
    exec .lcdBacklightOn s = .next (lcdDone s true s.dcf [.busWrite s.lcdAddr s.cfg.blMask]) ∧
    exec .lcdBacklightOff s = .next (lcdDone s false s.dcf [.busWrite s.lcdAddr 0x00])

/-- 20_memory.md R47: a bus write that never returns ends any LCD command there: its events up to that write are
emitted, no response is, the Engine stays at the line of that write, and what the command had written stays. That
the hung write itself stands in the trace is the model's reading (log 8). -/
def Obligations.HungWriteEndsTheCommandThere : Prop :=
  ∀ (s : State) (i : Instr) (k : Nat), s.env.busHang = some k → k < writeCount (lcdScript s i) →
    s.lcdRows ≤ 4 → ¬ undefinedRow s i →
    exec i s = .next { s with
      seq := .exec i (lineOfWrite i k), bl := backlightAfter i s.bl, dcf := flagsAtWrite i k s.dcf,
      trace := s.trace ++ upToWrite k (lcdScript s i), env := { s.env with busHang := some 0 } }

/-! ### The thermocouple decoder -/

/-- 43_thermocouple.md R112: `TC_READ` performs the read sequence, assembles the word, and responds SENSOR_FAULT
without payload when bit 2 is set, else OK with the temperature. -/
def Obligations.TcReadRunsTheSequence : Prop :=
  ∀ s : State, ∃ v : Num64,
    (v.toQ = (((wordOfBits (readBits s)).toNat / 8 : Nat) : Rat) / 4) ∧
    exec .tcRead s = .next { s with
      seq := .ready, tcCs := true, tcSck := false, tcSr := wordOfBits (readBits s),
      trace := s.trace ++ tcEvents s.cfg (readBits s) ++
        [if (wordOfBits (readBits s)).getLsbD 2 then .respond 0x01 []
         else .respond 0x00 (leBytes v.toBits)],
      env := afterSamples 16 s.env }

/-- 43_thermocouple.md R114: the first bit received is bit 15 of the word, the last is bit 0, whatever the register
held before. -/
def Obligations.RawWordIsMsbFirst : Prop :=
  ∀ s : State, (readBits s).length = 16 ∧ ∃ t, exec .tcRead s = .next t ∧
    ∀ k : Nat, k < 16 → (readBits s)[k]? = some (t.tcSr.getLsbD (15 - k))

/-- 43_thermocouple.md R115: with the fourteenth sample (bit 2) high the result is SENSOR_FAULT with no payload,
whatever the other fifteen samples are. -/
def Obligations.SensorFaultWhateverTheOtherBits : Prop :=
  ∀ s : State, (readBits s)[13]? = some true →
    ∃ t, exec .tcRead s = .next t ∧
      t.trace = s.trace ++ tcEvents s.cfg (readBits s) ++ [.respond 0x01 []]

/-- 30_encoding.md R75: the temperature of every raw word is exactly `TCOUNT / 4`, from 0 to 2047.75, so no result
is negative. -/
def Obligations.TemperatureIsExact : Prop :=
  ∀ w : BitVec 16, (tcTemperature w).toQ = ((w.toNat / 8 : Nat) : Rat) / 4 ∧
    0 ≤ (tcTemperature w).toQ ∧ (tcTemperature w).toQ ≤ 8191 / 4

/-! ### The ambient transfer function -/

/-- 44_ambient.md R121, R125: `AMB_READ` takes one sample of the domain and responds OK; it writes no state of the
block. -/
def Obligations.AmbReadTakesOneSample : Prop :=
  ∀ s : State, ∃ x, x ≤ s.cfg.fullScale ∧
    (∀ y ys, s.env.adcIn = y :: ys → y ≤ s.cfg.fullScale → x = y) ∧
    exec .ambRead s = .next { s with
      seq := .ready,
      trace := s.trace ++ [.adcSample x,
        .respond 0x00 (leBytes (numericsAmb s.cfg.vref s.cfg.fullScale x).toBits)],
      env := { s.env with adcIn := s.env.adcIn.drop 1, draws := s.env.draws + 1 } }

/-- 44_ambient.md R122: when the two intermediates of the evaluation order and the result are values of the format,
`numerics.amb` is the exact `x * (VREF / FULL_SCALE) * 100`, for every sample of the domain and `VREF > 0`. -/
def Obligations.AmbientIsExactWhenRepresentable : Prop :=
  ∀ (vref : Rat) (fullScale x : Nat) (q1 q2 q3 : Num64), 0 < vref → x ≤ fullScale →
    q1.toQ = vref / (fullScale : Rat) → q2.toQ = (x : Rat) * q1.toQ → q3.toQ = q2.toQ * 100 →
    ∃ v : Num64, numericsAmb vref fullScale x = .num v ∧ v.toQ = (x : Rat) * (vref / (fullScale : Rat)) * 100

/-- 44_ambient.md R121, corner cases: where the intermediates of R122's order and the result are values of the
format, no result is negative, none exceeds `100 * VREF`, and the sample `FULL_SCALE` gives `100 * VREF`; R121's limits
are read as those of the exact result. The sample 0 gives 0 in every configuration; that it does where
`VREF / FULL_SCALE` is no value of the format is the model's reading (log 17). An infinity is positive and comes from
an exact intermediate or result past the finite range; its sign and the exact intermediates are the model's reading
(logs 18 and 9). -/
def Obligations.AmbientStaysInItsRange : Prop :=
  ∀ (vref : Rat) (fullScale x : Nat), 0 < vref → 0 < fullScale → x ≤ fullScale →
    (∀ q1 q2 q3 : Num64,
      q1.toQ = vref / (fullScale : Rat) → q2.toQ = (x : Rat) * q1.toQ → q3.toQ = q2.toQ * 100 →
      ∃ v : Num64, numericsAmb vref fullScale x = .num v ∧ 0 ≤ v.toQ ∧ v.toQ ≤ 100 * vref ∧
        (x = fullScale → v.toQ = 100 * vref)) ∧
    (x = 0 → ∃ v : Num64, numericsAmb vref fullScale x = .num v ∧ v.toQ = 0) ∧
    ((∃ v : Num64, numericsAmb vref fullScale x = .num v) ∨
      (numericsAmb vref fullScale x = .inf false ∧
        (maxFinite < vref / (fullScale : Rat) ∨ maxFinite < (x : Rat) * (vref / (fullScale : Rat)) ∨
          maxFinite < (x : Rat) * (vref / (fullScale : Rat)) * 100)))

/-! ### The filter -/

/-- 45_filter.md R126, R135, R136: a push of a finite value drops the oldest sample of a full window, appends the
new one, responds with `numerics.mean` of the window, and leaves the other window and all else alone. That `-0.0`
is stored as 0 is R135's corner case. -/
def Obligations.PushAppendsAndEvicts : Prop :=
  (∀ (s : State) (v : F64) (x : Num64), Num64.ofBits? v = some x →
    exec (.filtPushTc v) s = .next
      (let w := (if s.winTc.length = s.cfg.nTc then s.winTc.drop 1 else s.winTc) ++ [x.canon]
       quietDone s w s.winAmb 0x00 (leBytes (numericsMean w).toBits))) ∧
  (∀ (s : State) (v : F64) (x : Num64), Num64.ofBits? v = some x →
    exec (.filtPushAmb v) s = .next
      (let w := (if s.winAmb.length = s.cfg.nAmb then s.winAmb.drop 1 else s.winAmb) ++ [x.canon]
       quietDone s s.winTc w 0x00 (leBytes (numericsMean w).toBits)))

/-- 30_encoding.md R67: a `Num` operand with a NaN or an infinity makes no state change, emits nothing and responds
BAD_OPERAND; every other field is a finite value. -/
def Obligations.NonFiniteOperandIsBadOperand : Prop :=
  (∀ v : F64, Num64.ofBits? v = none ↔ notFinite v) ∧
  (∀ (s : State) (v : F64), notFinite v →
    exec (.filtPushTc v) s = .next (quietDone s s.winTc s.winAmb 0x81 []) ∧
    exec (.filtPushAmb v) s = .next (quietDone s s.winTc s.winAmb 0x81 [])) ∧
  (∀ (s : State) (tc amb : F64), notFinite tc ∨ notFinite amb →
    exec (.compensate tc amb) s = .next (quietDone s s.winTc s.winAmb 0x81 []))

/-- 45_filter.md R127: when the running sums, oldest first, and the mean are values of the format, `numerics.mean`
is the exact mean of the window. -/
def Obligations.MeanIsExactWhenRepresentable : Prop :=
  ∀ (w : List Num64) (m : Num64), w ≠ [] →
    (∀ k, k ≤ w.length → ∃ a : Num64, a.toQ = ((w.take k).map Num64.toQ).sum) →
    m.toQ = (w.map Num64.toQ).sum / (w.length : Rat) →
    ∃ v : Num64, numericsMean w = .num v ∧ v.toQ = (w.map Num64.toQ).sum / (w.length : Rat)

/-- 45_filter.md R130, R133: after any sequence of pushes of finite values into an empty window, the window holds
exactly the last `N` of them (all of them when there are no more), in the order pushed; the other window is
untouched. -/
def Obligations.WindowHoldsTheLastPushes : Prop :=
  (∀ (s : State) (vs : List F64) (xs : List Num64), s.winTc = [] → 1 ≤ s.cfg.nTc →
    vs.map Num64.ofBits? = xs.map some →
    (execAll (vs.map .filtPushTc) s).winTc = (xs.map Num64.canon).drop (xs.length - s.cfg.nTc) ∧
    (execAll (vs.map .filtPushTc) s).winAmb = s.winAmb) ∧
  (∀ (s : State) (vs : List F64) (xs : List Num64), s.winAmb = [] → 1 ≤ s.cfg.nAmb →
    vs.map Num64.ofBits? = xs.map some →
    (execAll (vs.map .filtPushAmb) s).winAmb = (xs.map Num64.canon).drop (xs.length - s.cfg.nAmb) ∧
    (execAll (vs.map .filtPushAmb) s).winTc = s.winTc)

/-- 45_filter.md R129, R128: the first push of a channel returns its own value. -/
def Obligations.FirstPushReturnsItsOwnValue : Prop :=
  ∀ (s : State) (v : F64) (x : Num64), Num64.ofBits? v = some x →
    (s.winTc = [] → 1 ≤ s.cfg.nTc → ∃ y : Num64, y.toQ = x.toQ ∧
      exec (.filtPushTc v) s = .next (quietDone s [x.canon] s.winAmb 0x00 (leBytes y.toBits))) ∧
    (s.winAmb = [] → 1 ≤ s.cfg.nAmb → ∃ y : Num64, y.toQ = x.toQ ∧
      exec (.filtPushAmb v) s = .next (quietDone s s.winTc [x.canon] 0x00 (leBytes y.toBits)))

/-- 45_filter.md R131: what a push does to its own window and what it emits depends on that window and its capacity
alone, whatever else the two states hold. -/
def Obligations.WindowsAreIndependent : Prop :=
  (∀ (s t s' t' : State) (v : F64), s.winTc = t.winTc → s.cfg.nTc = t.cfg.nTc →
    exec (.filtPushTc v) s = .next s' → exec (.filtPushTc v) t = .next t' →
    s'.winTc = t'.winTc ∧ s'.trace.drop s.trace.length = t'.trace.drop t.trace.length) ∧
  (∀ (s t s' t' : State) (v : F64), s.winAmb = t.winAmb → s.cfg.nAmb = t.cfg.nAmb →
    exec (.filtPushAmb v) s = .next s' → exec (.filtPushAmb v) t = .next t' →
    s'.winAmb = t'.winAmb ∧ s'.trace.drop s.trace.length = t'.trace.drop t.trace.length)

/-! ### Compensation and the reserved opcodes -/

/-- 46_compensation.md R137, R141: finite operands respond OK with `numerics.comp` of the two, a function of the
operands alone; no state of the block is written. -/
def Obligations.CompensateRespondsWithTheCorrection : Prop :=
  ∀ (s : State) (tcBits ambBits : F64) (tc amb : Num64),
    Num64.ofBits? tcBits = some tc → Num64.ofBits? ambBits = some amb →
    exec (.compensate tcBits ambBits) s =
      .next (quietDone s s.winTc s.winAmb 0x00 (leBytes (numericsComp tc amb).toBits))

/-- 46_compensation.md R138: when `d = amb - 25` and `tc + d` are values of the format, `numerics.comp` is the
exact `tc + (amb - 25)`. -/
def Obligations.CompensationIsExactWhenRepresentable : Prop :=
  ∀ tc amb d r : Num64, d.toQ = amb.toQ - 25 → r.toQ = tc.toQ + d.toQ →
    ∃ v : Num64, numericsComp tc amb = .num v ∧ v.toQ = tc.toQ + (amb.toQ - 25)

/-- 46_compensation.md R137, corner case: at the reference ambient 25.0 the compensated temperature is `tc`
unchanged, for every finite `tc`. -/
def Obligations.ReferenceAmbientLeavesTcUnchanged : Prop :=
  ∀ (s : State) (tcBits : F64) (tc : Num64), Num64.ofBits? tcBits = some tc →
    ∃ v : Num64, v.toQ = tc.toQ ∧
      exec (.compensate tcBits 0x4039000000000000) s =
        .next (quietDone s s.winTc s.winAmb 0x00 (leBytes v.toBits))

/-- 30_encoding.md R76: every opcode outside the map is a command of one byte that responds ILLEGAL_OPCODE with no
other event and no state change; there are 237 of them. -/
def Obligations.ReservedOpcodesRespondIllegal : Prop :=
  ((List.range 256).filter (fun n => !definedOpcodes.contains (BitVec.ofNat 8 n))).length = 237 ∧
  (∀ (s : State) (opc : Byte),
    exec (.reserved opc) s = .next (quietDone s s.winTc s.winAmb 0x80 [])) ∧
  (∀ (s : State) (opc : Byte) (rest : List Byte), opc ∉ definedOpcodes → s.env.port = opc :: rest →
    s.refused = false → s.env.resetReq = false → s.ub = false → s.seq = .ready →
    step s = .next { s with
      trace := s.trace ++ [.respond 0x80 []], env := { s.env with port := rest } })

/-! ### Numerics -/

/-- 47_arithmetic_control_access.md R148, 00_scope.md R18: a result of `numerics` is never a NaN on the port, and
each of the three functions is finite whenever the exact result and the intermediates of its order lie within the
finite range. That the intermediates are those of exact arithmetic is the model's reading (log 9). -/
def Obligations.NumericsNeverGivesANaN : Prop :=
  (∀ v : Value, notFinite v.toBits → ∃ neg, v = .inf neg ∧ v.toBits.extractLsb' 0 52 = 0) ∧
  (∀ (vref : Rat) (fullScale x : Nat), inRange (vref / (fullScale : Rat)) = true →
    inRange ((x : Rat) * (vref / (fullScale : Rat))) = true →
    inRange ((x : Rat) * (vref / (fullScale : Rat)) * 100) = true →
    ∃ n, numericsAmb vref fullScale x = .num n) ∧
  (∀ w : List Num64, (∀ k, k ≤ w.length → inRange (((w.take k).map Num64.toQ).sum) = true) →
    inRange ((w.map Num64.toQ).sum / (w.length : Rat)) = true → ∃ n, numericsMean w = .num n) ∧
  (∀ tc amb : Num64, inRange (amb.toQ - 25) = true → inRange (tc.toQ + (amb.toQ - 25)) = true →
    ∃ n, numericsComp tc amb = .num n)

/-- 47_arithmetic_control_access.md R148, 95_test_vectors.md V-COMP-8: a mean and a compensated temperature are
finite, or an infinity with an exact result or an intermediate of the evaluation order past the finite range on the
side of its sign. That an infinity has that sign is the model's reading (log 18), and so is that the intermediates are
those of exact arithmetic, so that one which only rounding takes past the range gives no infinity (log 9). -/
def Obligations.InfinityHasTheSignOfAnOverflow : Prop :=
  (∀ w : List Num64,
    let past : (Rat → Prop) → Prop := fun P =>
      P ((w.map Num64.toQ).sum / (w.length : Rat)) ∨ ∃ k, k ≤ w.length ∧ P (((w.take k).map Num64.toQ).sum)
    (∃ n, numericsMean w = .num n) ∨
    (numericsMean w = .inf false ∧ past fun q => maxFinite < q) ∨
    (numericsMean w = .inf true ∧ past fun q => q < -maxFinite)) ∧
  (∀ tc amb : Num64,
    let past : (Rat → Prop) → Prop := fun P => P (tc.toQ + (amb.toQ - 25)) ∨ P (amb.toQ - 25)
    (∃ n, numericsComp tc amb = .num n) ∨
    (numericsComp tc amb = .inf false ∧ past fun q => maxFinite < q) ∨
    (numericsComp tc amb = .inf true ∧ past fun q => q < -maxFinite))

/-- A `Num` and its encoding are one to one on the finite fields (47_arithmetic_control_access.md R150). -/
def Obligations.NumEncodingRoundTrip : Prop :=
  (∀ n : Num64, Num64.ofBits? n.toBits = some n) ∧
  (∀ (v : F64) (n : Num64), Num64.ofBits? v = some n → n.toBits = v)

/-- Every number of the format is found again from its exact value, up to the sign of zero, so a result that is a
value of the format is always taken exactly (00_scope.md R12, R18). -/
def Obligations.ExactValuesAreFound : Prop :=
  (∀ n : Num64, Num64.ofQ? n.toQ = some n.canon) ∧
  (∀ (q : Rat) (n : Num64), Num64.ofQ? q = some n → n.toQ = q)

/-! ### Reset and refusal -/

/-- 70_reset_and_hazards.md R177: the reset values, for every configuration within its ranges; the shift register,
which has none, is left out. -/
def Obligations.ResetValues : Prop :=
  ∀ c : Config, configValid c = true →
    let s := State.resetOf c
    s.seq = .ready ∧ s.lcdAddr = c.lcdAddr ∧ s.lcdCols = c.cols ∧ s.lcdRows = c.rows ∧ s.bl = true ∧
    s.dcf = 0b100 ∧ s.tcCs = true ∧ s.tcSck = false ∧ s.winTc = [] ∧ s.winAmb = [] ∧ s.ub = false ∧
    s.ubInfo = none ∧ s.refused = false ∧ s.trace = []

/-- 70_reset_and_hazards.md R176, R179: a reset between commands puts every field to its reset value and emits
nothing; a reset while a command executes is refused, and the run has no further step. Three clauses are the model's
choice: the shift register, which R177 leaves unspecified, is 0 after the reset as in `State.resetOf` (log 2); the
reset is served before any byte that waits on the port, and the agents' inputs outlive it (both log 3). -/
def Obligations.ResetIsServedBetweenCommandsOnly : Prop :=
  (∀ s : State, s.refused = false → s.env.resetReq = true → s.seq = .ready → s.ub = false →
    step s = .next { State.resetOf s.cfg with env := { s.env with resetReq := false } }) ∧
  (∀ (s : State) (op : Instr) (k : Nat), s.refused = false → s.env.resetReq = true → s.seq = .exec op k →
    ∃ t, step s = .next t ∧ t = { s with refused := true, env := { s.env with resetReq := false } } ∧
      step t = .refused .runRefused)

/-- 60_exceptions.md R162, 45_filter.md R133: a configuration outside its ranges has no step, whatever its inputs;
a capacity of 0, rows outside 1 to 4, a full scale of 0 and a reference voltage not above 0 are outside. -/
def Obligations.BadConfigurationIsRefused : Prop :=
  (∀ (c : Config) (e : Env), configValid c = false →
    step { State.resetOf c with env := e } = .refused .runRefused) ∧
  (∀ c : Config, c.nTc = 0 ∨ c.nAmb = 0 ∨ c.rows = 0 ∨ 4 < c.rows ∨ c.cols = 0 ∨ c.fullScale = 0 ∨ c.vref ≤ 0 →
    configValid c = false)

/-! ### Whole-machine rules -/

/-- Every step keeps the register invariant: windows within capacity, pins idle, geometry as constructed
(10_state.md R22, R23, R27, R31, R36). -/
def Obligations.StepKeepsTheRegisterInvariant : Prop :=
  ∀ s t : State, RegsOk s → step s = .next t → RegsOk t

/-- Every step keeps both interfaces' protocols: no nibble transaction and no read is ever broken or interleaved, no
read is left open, and a nibble transaction is left open only by a bus write of it that never returns (20_memory.md
R50; 43_thermocouple.md R113, R118; 70_reset_and_hazards.md R182, R187, R188). That this write is itself the last event
of the trace (`TraceOk.stuck`) is the model's reading (log 8). -/
def Obligations.StepKeepsTheProtocols : Prop :=
  ∀ s t : State, Invariant s → step s = .next t → Invariant t

/-- The invariant holds after reset, for every configuration (70_reset_and_hazards.md R177). -/
def Obligations.ResetMeetsTheInvariant : Prop :=
  (∀ c : Config, Invariant (State.resetOf c)) ∧ Invariant State.reset

/-- Who writes what (10_state.md R22 to R25, R27, R28, R30): each field is written only by the commands the spec
names. -/
def Obligations.EachFieldHasItsWriters : Prop :=
  ∀ (i : Instr) (s t : State), exec i s = .next t →
    t.cfg = s.cfg ∧ t.lcdAddr = s.lcdAddr ∧ t.lcdCols = s.lcdCols ∧ t.lcdRows = s.lcdRows ∧
    t.refused = s.refused ∧ t.env.port = s.env.port ∧
    (i ≠ .lcdBacklightOn → i ≠ .lcdBacklightOff → t.bl = s.bl) ∧
    (i ∉ [.lcdInit, .lcdDisplayOn, .lcdDisplayOff, .lcdCursorOn, .lcdCursorOff, .lcdBlinkOn, .lcdBlinkOff] →
      t.dcf = s.dcf) ∧
    (i ≠ .tcRead → t.tcCs = s.tcCs ∧ t.tcSck = s.tcSck ∧ t.tcSr = s.tcSr) ∧
    ((∀ v, i ≠ .filtPushTc v) → t.winTc = s.winTc) ∧
    ((∀ v, i ≠ .filtPushAmb v) → t.winAmb = s.winAmb) ∧
    ((∀ col row, i ≠ .lcdSetCursor col row) → t.ub = s.ub ∧ t.ubInfo = s.ubInfo)

/-- 10_state.md R38: the trace is appended to and never rewritten, by any command and by any step that is no
reset. -/
def Obligations.TraceIsOnlyAppendedTo : Prop :=
  (∀ (i : Instr) (s t : State), exec i s = .next t → s.trace <+: t.trace) ∧
  (∀ s t : State, s.env.resetReq = false → step s = .next t → s.trace <+: t.trace)

/-- 30_encoding.md R65, R66: a command that completes has exactly one response, its last event, with one of the four
statuses, SENSOR_FAULT only from `TC_READ` and without payload, ILLEGAL_OPCODE only from a reserved opcode,
BAD_OPERAND only from the commands with a `Num` operand; a command that does not complete has none. -/
def Obligations.ExactlyOneResponse : Prop :=
  ∀ (i : Instr) (s t : State), exec i s = .next t →
    ∃ evs : List Event, responses evs = [] ∧
      ((t.seq = .ready ∧ ∃ st p, t.trace = s.trace ++ evs ++ [.respond st p] ∧
          (st = 0x00 ∨ (st = 0x01 ∧ p = [] ∧ i = .tcRead) ∨
           (st = 0x80 ∧ p = [] ∧ evs = [] ∧ ∃ opc, i = .reserved opc) ∨
           (st = 0x81 ∧ p = [] ∧ evs = [] ∧
             ((∃ v, i = .filtPushTc v) ∨ (∃ v, i = .filtPushAmb v) ∨ ∃ a b, i = .compensate a b)))) ∨
       (t.seq ≠ .ready ∧ t.trace = s.trace ++ evs ∧ isLcd i = true))

/-- 10_state.md R36, R37: `s.ub` and `s.refused` are sticky: no command and no step clears them, and the recorded
`info` stays the first. -/
def Obligations.StickyFlagsStay : Prop :=
  (∀ (i : Instr) (s t : State), exec i s = .next t →
    (s.ub = true → t.ub = true) ∧ (s.refused = true → t.refused = true) ∧
    (∀ info, s.ubInfo = some info → t.ubInfo = some info)) ∧
  (∀ s t : State, step s = .next t → s.ub = true → t.ub = true ∧ t.ubInfo = s.ubInfo) ∧
  (∀ s : State, s.refused = true → step s = .refused .runRefused)

/-- 10_state.md R31: once a window holds a sample it always does: no step but a reset empties it. -/
def Obligations.WindowsAreNeverEmptied : Prop :=
  ∀ s t : State, s.env.resetReq = false → step s = .next t →
    (s.winTc ≠ [] → t.winTc ≠ []) ∧ (s.winAmb ≠ [] → t.winAmb ≠ [])

/-- 70_reset_and_hazards.md R191: for every command that responds OK or SENSOR_FAULT, and for the reserved opcodes,
the number of bus writes and the sum of the waits of its events are those of the table; and in any timing of those
events that respects their waits (00_scope.md R15) the response comes at least that long after the first event. -/
def Obligations.MinimumDurations : Prop :=
  ∀ (i : Instr) (s t : State), exec i s = .next t → t.seq = .ready →
    ∃ evs : List Event, t.trace = s.trace ++ evs ∧ evs ≠ [] ∧
      writeCount evs = (durationTable s.cfg i).1 ∧ waitSum evs = (durationTable s.cfg i).2 ∧
      ∀ time : Nat → Nat, RespectsWaits evs time →
        time 0 + (durationTable s.cfg i).2 ≤ time (evs.length - 1)

/-! ### The assembler -/

/-- 30_encoding.md R80, 42_lcd_operations.md R110: `PRINT "text"` is one `LCD_DATA` per character, in order; a code
above `0xFF` is rejected; the empty text expands to nothing. The text may hold double quotes: that it runs from the
first to the last double quote of the line is the model's choice (log 16). -/
def Obligations.PrintIsOneDataByteEach : Prop :=
  ∀ text : List Char,
    ((∀ c ∈ text, c.toNat ≤ 0xFF) →
      assemble (['P', 'R', 'I', 'N', 'T', ' ', '"'] ++ text ++ ['"']) =
        some (text.map fun c => .lcdData (BitVec.ofNat 8 c.toNat))) ∧
    ((∃ c ∈ text, 0xFF < c.toNat) →
      assemble (['P', 'R', 'I', 'N', 'T', ' ', '"'] ++ text ++ ['"']) = none)

/-- 60_exceptions.md R162: a line the assembler rejects is refused, and the run has no further step; a line it
accepts puts exactly its commands' bytes behind those on the port. -/
def Obligations.RejectedTextIsRefused : Prop :=
  ∀ (line : List Char) (s : State),
    (assemble line = none → step (s.hostAssembles line) = .refused .runRefused) ∧
    (∀ is, assemble line = some is →
      s.hostAssembles line = { s with env := { s.env with port := s.env.port ++ is.flatMap encode } })
end

