-- ==== Sys2Proof/Laws/Decode.lean ====
section
/-! SUPPORT. The byte order of the host port, and what the field readers of the decoder do. -/

namespace Sys2Proof

/-- The 8 bytes of a field give the field back (20_memory.md R43). -/
theorem ofLeBytes_leBytes (v : F64) :
    ofLeBytes (v.extractLsb' 0 8) (v.extractLsb' 8 8) (v.extractLsb' 16 8) (v.extractLsb' 24 8)
      (v.extractLsb' 32 8) (v.extractLsb' 40 8) (v.extractLsb' 48 8) (v.extractLsb' 56 8) = v := by
  apply BitVec.eq_of_getLsbD_eq
  intro i hi
  simp only [ofLeBytes, BitVec.getLsbD_append, BitVec.getLsbD_extractLsb']
  repeat' split
  all_goals
    rw [decide_eq_true (by omega), Bool.true_and]
    congr 1
    omega

/-- A field's bytes are those it was made of (20_memory.md R43). -/
theorem leBytes_ofLeBytes (b0 b1 b2 b3 b4 b5 b6 b7 : Byte) :
    leBytes (ofLeBytes b0 b1 b2 b3 b4 b5 b6 b7) = [b0, b1, b2, b3, b4, b5, b6, b7] := by
  have key : ∀ (k : Nat) (b : Byte), (∀ i, i < 8 →
      (ofLeBytes b0 b1 b2 b3 b4 b5 b6 b7).getLsbD (k + i) = b.getLsbD i) →
      (ofLeBytes b0 b1 b2 b3 b4 b5 b6 b7).extractLsb' k 8 = b := by
    intro k b h
    apply BitVec.eq_of_getLsbD_eq
    intro i hi
    rw [BitVec.getLsbD_extractLsb', decide_eq_true hi, Bool.true_and, h i hi]
  simp only [leBytes, List.cons.injEq, and_true]
  refine ⟨key _ _ ?_, key _ _ ?_, key _ _ ?_, key _ _ ?_, key _ _ ?_, key _ _ ?_, key _ _ ?_, key _ _ ?_⟩ <;>
  · intro i hi
    simp only [ofLeBytes, BitVec.getLsbD_append]
    repeat' split
    all_goals first
      | omega
      | (congr 1; omega)

@[simp] theorem leBytes_length (v : F64) : (leBytes v).length = 8 := rfl

@[simp] theorem takeB_cons (opc b : Byte) (mk : Byte → Instr) (rest : List Byte) :
    takeB opc mk (b :: rest) = .ok (mk b, rest) := rfl
@[simp] theorem takeCR_cons (opc a b : Byte) (mk : Byte → Byte → Instr) (rest : List Byte) :
    takeCR opc mk (a :: b :: rest) = .ok (mk a b, rest) := rfl

/-- Format `N` reads back the field whose bytes it is given. -/
@[simp] theorem takeN_leBytes (opc : Byte) (mk : F64 → Instr) (v : F64) (rest : List Byte) :
    takeN opc mk (leBytes v ++ rest) = .ok (mk v, rest) := by
  simp only [leBytes, List.cons_append, List.nil_append, takeN, ofLeBytes_leBytes]

/-- Format `NN` reads back the two fields whose bytes it is given. -/
@[simp] theorem takeNN_leBytes (opc : Byte) (mk : F64 → F64 → Instr) (a c : F64) (rest : List Byte) :
    takeNN opc mk (leBytes a ++ (leBytes c ++ rest)) = .ok (mk a c, rest) := by
  have h : leBytes a ++ (leBytes c ++ rest) = a.extractLsb' 0 8 :: a.extractLsb' 8 8 :: a.extractLsb' 16 8 ::
      a.extractLsb' 24 8 :: a.extractLsb' 32 8 :: a.extractLsb' 40 8 :: a.extractLsb' 48 8 ::
      a.extractLsb' 56 8 :: (leBytes c ++ rest) := rfl
  rw [h, takeNN, ofLeBytes_leBytes, takeN_leBytes]

/-- What format `N` reads: eight bytes, or it asks for more. -/
theorem takeN_cases (opc : Byte) (mk : F64 → Instr) (bs : List Byte) :
    (∃ v rest, bs = leBytes v ++ rest ∧ takeN opc mk bs = .ok (mk v, rest)) ∨
    (bs.length < 8 ∧ takeN opc mk bs = .error (.truncated opc)) := by
  rcases bs with _ | ⟨b0, _ | ⟨b1, _ | ⟨b2, _ | ⟨b3, _ | ⟨b4, _ | ⟨b5, _ | ⟨b6, _ | ⟨b7, rest⟩⟩⟩⟩⟩⟩⟩⟩
  case cons.cons.cons.cons.cons.cons.cons.cons =>
    exact .inl ⟨ofLeBytes b0 b1 b2 b3 b4 b5 b6 b7, rest, by rw [leBytes_ofLeBytes]; rfl, rfl⟩
  all_goals exact .inr ⟨by simp, rfl⟩

/-- What format `NN` reads: sixteen bytes, or it asks for more. -/
theorem takeNN_cases (opc : Byte) (mk : F64 → F64 → Instr) (bs : List Byte) :
    (∃ a c rest, bs = leBytes a ++ (leBytes c ++ rest) ∧ takeNN opc mk bs = .ok (mk a c, rest)) ∨
    (bs.length < 16 ∧ takeNN opc mk bs = .error (.truncated opc)) := by
  rcases bs with _ | ⟨b0, _ | ⟨b1, _ | ⟨b2, _ | ⟨b3, _ | ⟨b4, _ | ⟨b5, _ | ⟨b6, _ | ⟨b7, rest⟩⟩⟩⟩⟩⟩⟩⟩
  case cons.cons.cons.cons.cons.cons.cons.cons =>
    rcases takeN_cases opc (mk (ofLeBytes b0 b1 b2 b3 b4 b5 b6 b7)) rest with ⟨v, r, hb, ht⟩ | ⟨hl, ht⟩
    · exact .inl ⟨ofLeBytes b0 b1 b2 b3 b4 b5 b6 b7, v, r, by rw [leBytes_ofLeBytes, hb]; rfl, ht⟩
    · exact .inr ⟨by simp; omega, ht⟩
  all_goals exact .inr ⟨by simp, rfl⟩

end Sys2Proof
end

