-- ==== Sys2Proof/Laws/State.lean ====
section
/-! SUPPORT. One lemma per field per named update of State, true by rfl. -/

namespace Sys2Proof.Machine

variable (s : State)

/-! `State.emit` -/

@[simp] theorem State.emit_cfg (e : Event) : (s.emit e).cfg = s.cfg := rfl
@[simp] theorem State.emit_seq (e : Event) : (s.emit e).seq = s.seq := rfl
@[simp] theorem State.emit_lcdAddr (e : Event) : (s.emit e).lcdAddr = s.lcdAddr := rfl
@[simp] theorem State.emit_lcdCols (e : Event) : (s.emit e).lcdCols = s.lcdCols := rfl
@[simp] theorem State.emit_lcdRows (e : Event) : (s.emit e).lcdRows = s.lcdRows := rfl
@[simp] theorem State.emit_bl (e : Event) : (s.emit e).bl = s.bl := rfl
@[simp] theorem State.emit_dcf (e : Event) : (s.emit e).dcf = s.dcf := rfl
@[simp] theorem State.emit_tcCs (e : Event) : (s.emit e).tcCs = s.tcCs := rfl
@[simp] theorem State.emit_tcSck (e : Event) : (s.emit e).tcSck = s.tcSck := rfl
@[simp] theorem State.emit_tcSr (e : Event) : (s.emit e).tcSr = s.tcSr := rfl
@[simp] theorem State.emit_winTc (e : Event) : (s.emit e).winTc = s.winTc := rfl
@[simp] theorem State.emit_winAmb (e : Event) : (s.emit e).winAmb = s.winAmb := rfl
@[simp] theorem State.emit_ub (e : Event) : (s.emit e).ub = s.ub := rfl
@[simp] theorem State.emit_ubInfo (e : Event) : (s.emit e).ubInfo = s.ubInfo := rfl
@[simp] theorem State.emit_refused (e : Event) : (s.emit e).refused = s.refused := rfl
@[simp] theorem State.emit_trace (e : Event) : (s.emit e).trace = s.trace ++ [e] := rfl
@[simp] theorem State.emit_env (e : Event) : (s.emit e).env = s.env := rfl

/-! `State.setSeq` -/

@[simp] theorem State.setSeq_cfg (q : SeqPos) : (s.setSeq q).cfg = s.cfg := rfl
@[simp] theorem State.setSeq_seq (q : SeqPos) : (s.setSeq q).seq = q := rfl
@[simp] theorem State.setSeq_lcdAddr (q : SeqPos) : (s.setSeq q).lcdAddr = s.lcdAddr := rfl
@[simp] theorem State.setSeq_lcdCols (q : SeqPos) : (s.setSeq q).lcdCols = s.lcdCols := rfl
@[simp] theorem State.setSeq_lcdRows (q : SeqPos) : (s.setSeq q).lcdRows = s.lcdRows := rfl
@[simp] theorem State.setSeq_bl (q : SeqPos) : (s.setSeq q).bl = s.bl := rfl
@[simp] theorem State.setSeq_dcf (q : SeqPos) : (s.setSeq q).dcf = s.dcf := rfl
@[simp] theorem State.setSeq_tcCs (q : SeqPos) : (s.setSeq q).tcCs = s.tcCs := rfl
@[simp] theorem State.setSeq_tcSck (q : SeqPos) : (s.setSeq q).tcSck = s.tcSck := rfl
@[simp] theorem State.setSeq_tcSr (q : SeqPos) : (s.setSeq q).tcSr = s.tcSr := rfl
@[simp] theorem State.setSeq_winTc (q : SeqPos) : (s.setSeq q).winTc = s.winTc := rfl
@[simp] theorem State.setSeq_winAmb (q : SeqPos) : (s.setSeq q).winAmb = s.winAmb := rfl
@[simp] theorem State.setSeq_ub (q : SeqPos) : (s.setSeq q).ub = s.ub := rfl
@[simp] theorem State.setSeq_ubInfo (q : SeqPos) : (s.setSeq q).ubInfo = s.ubInfo := rfl
@[simp] theorem State.setSeq_refused (q : SeqPos) : (s.setSeq q).refused = s.refused := rfl
@[simp] theorem State.setSeq_trace (q : SeqPos) : (s.setSeq q).trace = s.trace := rfl
@[simp] theorem State.setSeq_env (q : SeqPos) : (s.setSeq q).env = s.env := rfl

/-! `State.setBl` -/

@[simp] theorem State.setBl_cfg (v : Bool) : (s.setBl v).cfg = s.cfg := rfl
@[simp] theorem State.setBl_seq (v : Bool) : (s.setBl v).seq = s.seq := rfl
@[simp] theorem State.setBl_lcdAddr (v : Bool) : (s.setBl v).lcdAddr = s.lcdAddr := rfl
@[simp] theorem State.setBl_lcdCols (v : Bool) : (s.setBl v).lcdCols = s.lcdCols := rfl
@[simp] theorem State.setBl_lcdRows (v : Bool) : (s.setBl v).lcdRows = s.lcdRows := rfl
@[simp] theorem State.setBl_bl (v : Bool) : (s.setBl v).bl = v := rfl
@[simp] theorem State.setBl_dcf (v : Bool) : (s.setBl v).dcf = s.dcf := rfl
@[simp] theorem State.setBl_tcCs (v : Bool) : (s.setBl v).tcCs = s.tcCs := rfl
@[simp] theorem State.setBl_tcSck (v : Bool) : (s.setBl v).tcSck = s.tcSck := rfl
@[simp] theorem State.setBl_tcSr (v : Bool) : (s.setBl v).tcSr = s.tcSr := rfl
@[simp] theorem State.setBl_winTc (v : Bool) : (s.setBl v).winTc = s.winTc := rfl
@[simp] theorem State.setBl_winAmb (v : Bool) : (s.setBl v).winAmb = s.winAmb := rfl
@[simp] theorem State.setBl_ub (v : Bool) : (s.setBl v).ub = s.ub := rfl
@[simp] theorem State.setBl_ubInfo (v : Bool) : (s.setBl v).ubInfo = s.ubInfo := rfl
@[simp] theorem State.setBl_refused (v : Bool) : (s.setBl v).refused = s.refused := rfl
@[simp] theorem State.setBl_trace (v : Bool) : (s.setBl v).trace = s.trace := rfl
@[simp] theorem State.setBl_env (v : Bool) : (s.setBl v).env = s.env := rfl

/-! `State.setDcf` -/

@[simp] theorem State.setDcf_cfg (v : BitVec 3) : (s.setDcf v).cfg = s.cfg := rfl
@[simp] theorem State.setDcf_seq (v : BitVec 3) : (s.setDcf v).seq = s.seq := rfl
@[simp] theorem State.setDcf_lcdAddr (v : BitVec 3) : (s.setDcf v).lcdAddr = s.lcdAddr := rfl
@[simp] theorem State.setDcf_lcdCols (v : BitVec 3) : (s.setDcf v).lcdCols = s.lcdCols := rfl
@[simp] theorem State.setDcf_lcdRows (v : BitVec 3) : (s.setDcf v).lcdRows = s.lcdRows := rfl
@[simp] theorem State.setDcf_bl (v : BitVec 3) : (s.setDcf v).bl = s.bl := rfl
@[simp] theorem State.setDcf_dcf (v : BitVec 3) : (s.setDcf v).dcf = v := rfl
@[simp] theorem State.setDcf_tcCs (v : BitVec 3) : (s.setDcf v).tcCs = s.tcCs := rfl
@[simp] theorem State.setDcf_tcSck (v : BitVec 3) : (s.setDcf v).tcSck = s.tcSck := rfl
@[simp] theorem State.setDcf_tcSr (v : BitVec 3) : (s.setDcf v).tcSr = s.tcSr := rfl
@[simp] theorem State.setDcf_winTc (v : BitVec 3) : (s.setDcf v).winTc = s.winTc := rfl
@[simp] theorem State.setDcf_winAmb (v : BitVec 3) : (s.setDcf v).winAmb = s.winAmb := rfl
@[simp] theorem State.setDcf_ub (v : BitVec 3) : (s.setDcf v).ub = s.ub := rfl
@[simp] theorem State.setDcf_ubInfo (v : BitVec 3) : (s.setDcf v).ubInfo = s.ubInfo := rfl
@[simp] theorem State.setDcf_refused (v : BitVec 3) : (s.setDcf v).refused = s.refused := rfl
@[simp] theorem State.setDcf_trace (v : BitVec 3) : (s.setDcf v).trace = s.trace := rfl
@[simp] theorem State.setDcf_env (v : BitVec 3) : (s.setDcf v).env = s.env := rfl

/-! `State.setTcSr` -/

@[simp] theorem State.setTcSr_cfg (w : BitVec 16) : (s.setTcSr w).cfg = s.cfg := rfl
@[simp] theorem State.setTcSr_seq (w : BitVec 16) : (s.setTcSr w).seq = s.seq := rfl
@[simp] theorem State.setTcSr_lcdAddr (w : BitVec 16) : (s.setTcSr w).lcdAddr = s.lcdAddr := rfl
@[simp] theorem State.setTcSr_lcdCols (w : BitVec 16) : (s.setTcSr w).lcdCols = s.lcdCols := rfl
@[simp] theorem State.setTcSr_lcdRows (w : BitVec 16) : (s.setTcSr w).lcdRows = s.lcdRows := rfl
@[simp] theorem State.setTcSr_bl (w : BitVec 16) : (s.setTcSr w).bl = s.bl := rfl
@[simp] theorem State.setTcSr_dcf (w : BitVec 16) : (s.setTcSr w).dcf = s.dcf := rfl
@[simp] theorem State.setTcSr_tcCs (w : BitVec 16) : (s.setTcSr w).tcCs = s.tcCs := rfl
@[simp] theorem State.setTcSr_tcSck (w : BitVec 16) : (s.setTcSr w).tcSck = s.tcSck := rfl
@[simp] theorem State.setTcSr_tcSr (w : BitVec 16) : (s.setTcSr w).tcSr = w := rfl
@[simp] theorem State.setTcSr_winTc (w : BitVec 16) : (s.setTcSr w).winTc = s.winTc := rfl
@[simp] theorem State.setTcSr_winAmb (w : BitVec 16) : (s.setTcSr w).winAmb = s.winAmb := rfl
@[simp] theorem State.setTcSr_ub (w : BitVec 16) : (s.setTcSr w).ub = s.ub := rfl
@[simp] theorem State.setTcSr_ubInfo (w : BitVec 16) : (s.setTcSr w).ubInfo = s.ubInfo := rfl
@[simp] theorem State.setTcSr_refused (w : BitVec 16) : (s.setTcSr w).refused = s.refused := rfl
@[simp] theorem State.setTcSr_trace (w : BitVec 16) : (s.setTcSr w).trace = s.trace := rfl
@[simp] theorem State.setTcSr_env (w : BitVec 16) : (s.setTcSr w).env = s.env := rfl

/-! `State.setWinTc` -/

@[simp] theorem State.setWinTc_cfg (w : List Num64) : (s.setWinTc w).cfg = s.cfg := rfl
@[simp] theorem State.setWinTc_seq (w : List Num64) : (s.setWinTc w).seq = s.seq := rfl
@[simp] theorem State.setWinTc_lcdAddr (w : List Num64) : (s.setWinTc w).lcdAddr = s.lcdAddr := rfl
@[simp] theorem State.setWinTc_lcdCols (w : List Num64) : (s.setWinTc w).lcdCols = s.lcdCols := rfl
@[simp] theorem State.setWinTc_lcdRows (w : List Num64) : (s.setWinTc w).lcdRows = s.lcdRows := rfl
@[simp] theorem State.setWinTc_bl (w : List Num64) : (s.setWinTc w).bl = s.bl := rfl
@[simp] theorem State.setWinTc_dcf (w : List Num64) : (s.setWinTc w).dcf = s.dcf := rfl
@[simp] theorem State.setWinTc_tcCs (w : List Num64) : (s.setWinTc w).tcCs = s.tcCs := rfl
@[simp] theorem State.setWinTc_tcSck (w : List Num64) : (s.setWinTc w).tcSck = s.tcSck := rfl
@[simp] theorem State.setWinTc_tcSr (w : List Num64) : (s.setWinTc w).tcSr = s.tcSr := rfl
@[simp] theorem State.setWinTc_winTc (w : List Num64) : (s.setWinTc w).winTc = w := rfl
@[simp] theorem State.setWinTc_winAmb (w : List Num64) : (s.setWinTc w).winAmb = s.winAmb := rfl
@[simp] theorem State.setWinTc_ub (w : List Num64) : (s.setWinTc w).ub = s.ub := rfl
@[simp] theorem State.setWinTc_ubInfo (w : List Num64) : (s.setWinTc w).ubInfo = s.ubInfo := rfl
@[simp] theorem State.setWinTc_refused (w : List Num64) : (s.setWinTc w).refused = s.refused := rfl
@[simp] theorem State.setWinTc_trace (w : List Num64) : (s.setWinTc w).trace = s.trace := rfl
@[simp] theorem State.setWinTc_env (w : List Num64) : (s.setWinTc w).env = s.env := rfl

/-! `State.setWinAmb` -/

@[simp] theorem State.setWinAmb_cfg (w : List Num64) : (s.setWinAmb w).cfg = s.cfg := rfl
@[simp] theorem State.setWinAmb_seq (w : List Num64) : (s.setWinAmb w).seq = s.seq := rfl
@[simp] theorem State.setWinAmb_lcdAddr (w : List Num64) : (s.setWinAmb w).lcdAddr = s.lcdAddr := rfl
@[simp] theorem State.setWinAmb_lcdCols (w : List Num64) : (s.setWinAmb w).lcdCols = s.lcdCols := rfl
@[simp] theorem State.setWinAmb_lcdRows (w : List Num64) : (s.setWinAmb w).lcdRows = s.lcdRows := rfl
@[simp] theorem State.setWinAmb_bl (w : List Num64) : (s.setWinAmb w).bl = s.bl := rfl
@[simp] theorem State.setWinAmb_dcf (w : List Num64) : (s.setWinAmb w).dcf = s.dcf := rfl
@[simp] theorem State.setWinAmb_tcCs (w : List Num64) : (s.setWinAmb w).tcCs = s.tcCs := rfl
@[simp] theorem State.setWinAmb_tcSck (w : List Num64) : (s.setWinAmb w).tcSck = s.tcSck := rfl
@[simp] theorem State.setWinAmb_tcSr (w : List Num64) : (s.setWinAmb w).tcSr = s.tcSr := rfl
@[simp] theorem State.setWinAmb_winTc (w : List Num64) : (s.setWinAmb w).winTc = s.winTc := rfl
@[simp] theorem State.setWinAmb_winAmb (w : List Num64) : (s.setWinAmb w).winAmb = w := rfl
@[simp] theorem State.setWinAmb_ub (w : List Num64) : (s.setWinAmb w).ub = s.ub := rfl
@[simp] theorem State.setWinAmb_ubInfo (w : List Num64) : (s.setWinAmb w).ubInfo = s.ubInfo := rfl
@[simp] theorem State.setWinAmb_refused (w : List Num64) : (s.setWinAmb w).refused = s.refused := rfl
@[simp] theorem State.setWinAmb_trace (w : List Num64) : (s.setWinAmb w).trace = s.trace := rfl
@[simp] theorem State.setWinAmb_env (w : List Num64) : (s.setWinAmb w).env = s.env := rfl

/-! `State.setEnv` -/

@[simp] theorem State.setEnv_cfg (e : Env) : (s.setEnv e).cfg = s.cfg := rfl
@[simp] theorem State.setEnv_seq (e : Env) : (s.setEnv e).seq = s.seq := rfl
@[simp] theorem State.setEnv_lcdAddr (e : Env) : (s.setEnv e).lcdAddr = s.lcdAddr := rfl
@[simp] theorem State.setEnv_lcdCols (e : Env) : (s.setEnv e).lcdCols = s.lcdCols := rfl
@[simp] theorem State.setEnv_lcdRows (e : Env) : (s.setEnv e).lcdRows = s.lcdRows := rfl
@[simp] theorem State.setEnv_bl (e : Env) : (s.setEnv e).bl = s.bl := rfl
@[simp] theorem State.setEnv_dcf (e : Env) : (s.setEnv e).dcf = s.dcf := rfl
@[simp] theorem State.setEnv_tcCs (e : Env) : (s.setEnv e).tcCs = s.tcCs := rfl
@[simp] theorem State.setEnv_tcSck (e : Env) : (s.setEnv e).tcSck = s.tcSck := rfl
@[simp] theorem State.setEnv_tcSr (e : Env) : (s.setEnv e).tcSr = s.tcSr := rfl
@[simp] theorem State.setEnv_winTc (e : Env) : (s.setEnv e).winTc = s.winTc := rfl
@[simp] theorem State.setEnv_winAmb (e : Env) : (s.setEnv e).winAmb = s.winAmb := rfl
@[simp] theorem State.setEnv_ub (e : Env) : (s.setEnv e).ub = s.ub := rfl
@[simp] theorem State.setEnv_ubInfo (e : Env) : (s.setEnv e).ubInfo = s.ubInfo := rfl
@[simp] theorem State.setEnv_refused (e : Env) : (s.setEnv e).refused = s.refused := rfl
@[simp] theorem State.setEnv_trace (e : Env) : (s.setEnv e).trace = s.trace := rfl
@[simp] theorem State.setEnv_env (e : Env) : (s.setEnv e).env = e := rfl

/-! `State.refuse` -/

@[simp] theorem State.refuse_cfg : s.refuse.cfg = s.cfg := rfl
@[simp] theorem State.refuse_seq : s.refuse.seq = s.seq := rfl
@[simp] theorem State.refuse_lcdAddr : s.refuse.lcdAddr = s.lcdAddr := rfl
@[simp] theorem State.refuse_lcdCols : s.refuse.lcdCols = s.lcdCols := rfl
@[simp] theorem State.refuse_lcdRows : s.refuse.lcdRows = s.lcdRows := rfl
@[simp] theorem State.refuse_bl : s.refuse.bl = s.bl := rfl
@[simp] theorem State.refuse_dcf : s.refuse.dcf = s.dcf := rfl
@[simp] theorem State.refuse_tcCs : s.refuse.tcCs = s.tcCs := rfl
@[simp] theorem State.refuse_tcSck : s.refuse.tcSck = s.tcSck := rfl
@[simp] theorem State.refuse_tcSr : s.refuse.tcSr = s.tcSr := rfl
@[simp] theorem State.refuse_winTc : s.refuse.winTc = s.winTc := rfl
@[simp] theorem State.refuse_winAmb : s.refuse.winAmb = s.winAmb := rfl
@[simp] theorem State.refuse_ub : s.refuse.ub = s.ub := rfl
@[simp] theorem State.refuse_ubInfo : s.refuse.ubInfo = s.ubInfo := rfl
@[simp] theorem State.refuse_refused : s.refuse.refused = true := rfl
@[simp] theorem State.refuse_trace : s.refuse.trace = s.trace := rfl
@[simp] theorem State.refuse_env : s.refuse.env = s.env := rfl

/-! `State.setLevel` -/

@[simp] theorem State.setLevel_cfg (p : Pin) (v : Bool) : (s.setLevel p v).cfg = s.cfg := by cases p <;> rfl
@[simp] theorem State.setLevel_seq (p : Pin) (v : Bool) : (s.setLevel p v).seq = s.seq := by cases p <;> rfl
@[simp] theorem State.setLevel_lcdAddr (p : Pin) (v : Bool) : (s.setLevel p v).lcdAddr = s.lcdAddr := by cases p <;> rfl
@[simp] theorem State.setLevel_lcdCols (p : Pin) (v : Bool) : (s.setLevel p v).lcdCols = s.lcdCols := by cases p <;> rfl
@[simp] theorem State.setLevel_lcdRows (p : Pin) (v : Bool) : (s.setLevel p v).lcdRows = s.lcdRows := by cases p <;> rfl
@[simp] theorem State.setLevel_bl (p : Pin) (v : Bool) : (s.setLevel p v).bl = s.bl := by cases p <;> rfl
@[simp] theorem State.setLevel_dcf (p : Pin) (v : Bool) : (s.setLevel p v).dcf = s.dcf := by cases p <;> rfl
@[simp] theorem State.setLevel_tcCs_self (v : Bool) : (s.setLevel .tcCs v).tcCs = v := rfl
@[simp] theorem State.setLevel_tcCs_of_tcSck (v : Bool) : (s.setLevel .tcSck v).tcCs = s.tcCs := rfl
@[simp] theorem State.setLevel_tcSck_self (v : Bool) : (s.setLevel .tcSck v).tcSck = v := rfl
@[simp] theorem State.setLevel_tcSck_of_tcCs (v : Bool) : (s.setLevel .tcCs v).tcSck = s.tcSck := rfl
@[simp] theorem State.setLevel_tcSr (p : Pin) (v : Bool) : (s.setLevel p v).tcSr = s.tcSr := by cases p <;> rfl
@[simp] theorem State.setLevel_winTc (p : Pin) (v : Bool) : (s.setLevel p v).winTc = s.winTc := by cases p <;> rfl
@[simp] theorem State.setLevel_winAmb (p : Pin) (v : Bool) : (s.setLevel p v).winAmb = s.winAmb := by cases p <;> rfl
@[simp] theorem State.setLevel_ub (p : Pin) (v : Bool) : (s.setLevel p v).ub = s.ub := by cases p <;> rfl
@[simp] theorem State.setLevel_ubInfo (p : Pin) (v : Bool) : (s.setLevel p v).ubInfo = s.ubInfo := by cases p <;> rfl
@[simp] theorem State.setLevel_refused (p : Pin) (v : Bool) : (s.setLevel p v).refused = s.refused := by cases p <;> rfl
@[simp] theorem State.setLevel_trace (p : Pin) (v : Bool) : (s.setLevel p v).trace = s.trace := by cases p <;> rfl
@[simp] theorem State.setLevel_env (p : Pin) (v : Bool) : (s.setLevel p v).env = s.env := by cases p <;> rfl

/-! What reset leaves (70_reset_and_hazards.md R177). -/

@[simp] theorem State.resetOf_cfg (c : Config) : (State.resetOf c).cfg = c := rfl
@[simp] theorem State.resetOf_seq (c : Config) : (State.resetOf c).seq = .ready := rfl
@[simp] theorem State.resetOf_lcdAddr (c : Config) : (State.resetOf c).lcdAddr = c.lcdAddr := rfl
@[simp] theorem State.resetOf_lcdCols (c : Config) : (State.resetOf c).lcdCols = c.cols := rfl
@[simp] theorem State.resetOf_lcdRows (c : Config) : (State.resetOf c).lcdRows = c.rows := rfl
@[simp] theorem State.resetOf_bl (c : Config) : (State.resetOf c).bl = true := rfl
@[simp] theorem State.resetOf_dcf (c : Config) : (State.resetOf c).dcf = 0b100 := rfl
@[simp] theorem State.resetOf_tcCs (c : Config) : (State.resetOf c).tcCs = true := rfl
@[simp] theorem State.resetOf_tcSck (c : Config) : (State.resetOf c).tcSck = false := rfl
@[simp] theorem State.resetOf_tcSr (c : Config) : (State.resetOf c).tcSr = 0 := rfl
@[simp] theorem State.resetOf_winTc (c : Config) : (State.resetOf c).winTc = [] := rfl
@[simp] theorem State.resetOf_winAmb (c : Config) : (State.resetOf c).winAmb = [] := rfl
@[simp] theorem State.resetOf_ub (c : Config) : (State.resetOf c).ub = false := rfl
@[simp] theorem State.resetOf_ubInfo (c : Config) : (State.resetOf c).ubInfo = none := rfl
@[simp] theorem State.resetOf_refused (c : Config) : (State.resetOf c).refused = (!configValid c) := rfl
@[simp] theorem State.resetOf_trace (c : Config) : (State.resetOf c).trace = [] := rfl
@[simp] theorem State.resetOf_env (c : Config) : (State.resetOf c).env = Env.quiet := rfl

end Sys2Proof.Machine
end

