-- ==== Sys2Proof/Laws/Ops.lean ====
section
/-! SUPPORT. What each shared operation can do: the Engine's flow, the bus writes with the Bus transport's draws,
and one inversion lemma each for the micro-operations, the commands and the step. -/

namespace Sys2Proof.Machine

/-! ### Progress -/

@[simp] theorem Progress.state_go (s : State) : (Progress.go s).state = s := rfl
@[simp] theorem Progress.state_stop (s : State) : (Progress.stop s).state = s := rfl
@[simp] theorem Progress.andThen_go (s : State) (f : State → Progress) : (Progress.go s).andThen f = f s := rfl
@[simp] theorem Progress.andThen_stop (s : State) (f : State → Progress) : (Progress.stop s).andThen f = .stop s := rfl
@[simp] theorem inOrder_nil (s : State) : inOrder [] s = .go s := rfl
@[simp] theorem inOrder_cons (f : State → Progress) (fs : List (State → Progress)) (s : State) :
    inOrder (f :: fs) s = (f s).andThen (inOrder fs) := rfl
@[simp] theorem runLines_nil (op : Instr) (k : Nat) (s : State) : runLines op k [] s = .go s := rfl
@[simp] theorem runLines_cons (op : Instr) (k : Nat) (f : State → Progress) (fs : List (State → Progress)) (s : State) :
    runLines op k (f :: fs) s = (f (s.setSeq (.exec op k))).andThen (runLines op (k + 1) fs) := rfl
@[simp] theorem update_go (f : State → State) (s : State) : update f s = .go (f s) := rfl
@[simp] theorem wait_go (d : Nat) (s : State) : wait d s = .go (s.emit (.wait d)) := rfl
@[simp] theorem respond_stop (st : Byte) (p : List Byte) (s : State) :
    respond st p s = .stop ((s.emit (.respond st p)).setSeq .ready) := rfl

/-- Progress composition is associative. -/
theorem Progress.andThen_assoc (x : Progress) (f g : State → Progress) :
    (x.andThen f).andThen g = x.andThen (fun s => (f s).andThen g) := by
  cases x <;> rfl

/-! ### Bus writes -/

/-- The state after events of completed bus writes. -/
def State.sent (s : State) (evs : List Event) (n : Nat) : State :=
  { s with trace := s.trace ++ evs, env := s.env.afterWrites n }

/-- The state in which a bus write, the last of `evs`, never returns. -/
def State.cut (s : State) (evs : List Event) : State :=
  { s with trace := s.trace ++ evs, env := { s.env with busHang := some 0 } }

@[simp] theorem State.sent_cfg (s : State) (evs : List Event) (n : Nat) : (s.sent evs n).cfg = s.cfg := rfl
@[simp] theorem State.sent_seq (s : State) (evs : List Event) (n : Nat) : (s.sent evs n).seq = s.seq := rfl
@[simp] theorem State.sent_lcdAddr (s : State) (evs : List Event) (n : Nat) : (s.sent evs n).lcdAddr = s.lcdAddr := rfl
@[simp] theorem State.sent_lcdCols (s : State) (evs : List Event) (n : Nat) : (s.sent evs n).lcdCols = s.lcdCols := rfl
@[simp] theorem State.sent_lcdRows (s : State) (evs : List Event) (n : Nat) : (s.sent evs n).lcdRows = s.lcdRows := rfl
@[simp] theorem State.sent_bl (s : State) (evs : List Event) (n : Nat) : (s.sent evs n).bl = s.bl := rfl
@[simp] theorem State.sent_dcf (s : State) (evs : List Event) (n : Nat) : (s.sent evs n).dcf = s.dcf := rfl
@[simp] theorem State.sent_tcCs (s : State) (evs : List Event) (n : Nat) : (s.sent evs n).tcCs = s.tcCs := rfl
@[simp] theorem State.sent_tcSck (s : State) (evs : List Event) (n : Nat) : (s.sent evs n).tcSck = s.tcSck := rfl
@[simp] theorem State.sent_tcSr (s : State) (evs : List Event) (n : Nat) : (s.sent evs n).tcSr = s.tcSr := rfl
@[simp] theorem State.sent_winTc (s : State) (evs : List Event) (n : Nat) : (s.sent evs n).winTc = s.winTc := rfl
@[simp] theorem State.sent_winAmb (s : State) (evs : List Event) (n : Nat) : (s.sent evs n).winAmb = s.winAmb := rfl
@[simp] theorem State.sent_ub (s : State) (evs : List Event) (n : Nat) : (s.sent evs n).ub = s.ub := rfl
@[simp] theorem State.sent_ubInfo (s : State) (evs : List Event) (n : Nat) : (s.sent evs n).ubInfo = s.ubInfo := rfl
@[simp] theorem State.sent_refused (s : State) (evs : List Event) (n : Nat) : (s.sent evs n).refused = s.refused := rfl
@[simp] theorem State.sent_trace (s : State) (evs : List Event) (n : Nat) : (s.sent evs n).trace = s.trace ++ evs := rfl
@[simp] theorem State.sent_env (s : State) (evs : List Event) (n : Nat) : (s.sent evs n).env = s.env.afterWrites n := rfl
@[simp] theorem State.cut_cfg (s : State) (evs : List Event) : (s.cut evs).cfg = s.cfg := rfl
@[simp] theorem State.cut_seq (s : State) (evs : List Event) : (s.cut evs).seq = s.seq := rfl
@[simp] theorem State.cut_lcdAddr (s : State) (evs : List Event) : (s.cut evs).lcdAddr = s.lcdAddr := rfl
@[simp] theorem State.cut_lcdCols (s : State) (evs : List Event) : (s.cut evs).lcdCols = s.lcdCols := rfl
@[simp] theorem State.cut_lcdRows (s : State) (evs : List Event) : (s.cut evs).lcdRows = s.lcdRows := rfl
@[simp] theorem State.cut_bl (s : State) (evs : List Event) : (s.cut evs).bl = s.bl := rfl
@[simp] theorem State.cut_dcf (s : State) (evs : List Event) : (s.cut evs).dcf = s.dcf := rfl
@[simp] theorem State.cut_tcCs (s : State) (evs : List Event) : (s.cut evs).tcCs = s.tcCs := rfl
@[simp] theorem State.cut_tcSck (s : State) (evs : List Event) : (s.cut evs).tcSck = s.tcSck := rfl
@[simp] theorem State.cut_tcSr (s : State) (evs : List Event) : (s.cut evs).tcSr = s.tcSr := rfl
@[simp] theorem State.cut_winTc (s : State) (evs : List Event) : (s.cut evs).winTc = s.winTc := rfl
@[simp] theorem State.cut_winAmb (s : State) (evs : List Event) : (s.cut evs).winAmb = s.winAmb := rfl
@[simp] theorem State.cut_ub (s : State) (evs : List Event) : (s.cut evs).ub = s.ub := rfl
@[simp] theorem State.cut_ubInfo (s : State) (evs : List Event) : (s.cut evs).ubInfo = s.ubInfo := rfl
@[simp] theorem State.cut_refused (s : State) (evs : List Event) : (s.cut evs).refused = s.refused := rfl
@[simp] theorem State.cut_trace (s : State) (evs : List Event) : (s.cut evs).trace = s.trace ++ evs := rfl
@[simp] theorem State.cut_env (s : State) (evs : List Event) : (s.cut evs).env = { s.env with busHang := some 0 } := rfl

/-- Bus writes and waits, played in order. -/
def play : List Event → State → Progress
  | [], s => .go s
  | .busWrite a b :: tr, s => (busWrite a b s).andThen (play tr)
  | .wait d :: tr, s => (wait d s).andThen (play tr)
  | _ :: tr, s => play tr s

/-- Only bus writes and waits. -/
def onlyBus : List Event → Bool
  | [] => true
  | .busWrite _ _ :: tr => onlyBus tr
  | .wait _ :: tr => onlyBus tr
  | _ :: _ => false

@[simp] theorem writeCount_nil : writeCount [] = 0 := rfl
@[simp] theorem writeCount_busWrite (a : BitVec 7) (b : Byte) (tr : List Event) :
    writeCount (.busWrite a b :: tr) = writeCount tr + 1 := rfl
@[simp] theorem writeCount_wait (d : Nat) (tr : List Event) : writeCount (.wait d :: tr) = writeCount tr := rfl

theorem busBytes_append (xs ys : List Event) : busBytes (xs ++ ys) = busBytes xs ++ busBytes ys := by
  induction xs with
  | nil => rfl
  | cons e xs ih => cases e <;> simp [busBytes, ih]

theorem writeCount_append (xs ys : List Event) : writeCount (xs ++ ys) = writeCount xs + writeCount ys := by
  simp [writeCount, busBytes_append]

theorem onlyBus_append {xs ys : List Event} (hx : onlyBus xs = true) (hy : onlyBus ys = true) :
    onlyBus (xs ++ ys) = true := by
  induction xs with
  | nil => exact hy
  | cons e xs ih => cases e <;> simp_all [onlyBus]

theorem afterWrites_zero (e : Env) : e.afterWrites 0 = e := by
  rcases e with ⟨port, rq, hang, ti, ai, dr⟩
  cases hang <;> rfl

theorem afterWrites_add (e : Env) (m n : Nat) : (e.afterWrites m).afterWrites n = e.afterWrites (m + n) := by
  rcases e with ⟨port, rq, hang, ti, ai, dr⟩
  cases hang <;> simp [Env.afterWrites, Nat.sub_sub]

theorem sent_nil (s : State) : s.sent [] 0 = s := by
  simp [State.sent, afterWrites_zero]

theorem sent_sent (s : State) (xs ys : List Event) (m n : Nat) :
    (s.sent xs m).sent ys n = s.sent (xs ++ ys) (m + n) := by
  simp [State.sent, afterWrites_add]

theorem cut_sent (s : State) (xs ys : List Event) (m : Nat) : (s.sent xs m).cut ys = s.cut (xs ++ ys) := by
  simp [State.sent, State.cut, Env.afterWrites]

/-- What a bus write does: it completes, or it never returns (20_memory.md R47). -/
theorem busWrite_cases (addr : BitVec 7) (b : Byte) (s : State) :
    (busAllows 1 s.env ∧ busWrite addr b s = .go (s.sent [.busWrite addr b] 1)) ∨
    (s.env.busHang = some 0 ∧ busWrite addr b s = .stop (s.cut [.busWrite addr b])) := by
  rcases s with ⟨cfg, seq, la, lc, lr, bl, dcf, cs, sck, sr, wt, wa, ub, ui, rf, tr, env⟩
  rcases env with ⟨port, rq, hang, ti, ai, dr⟩
  rcases hang with _ | _ | k
  · exact .inl ⟨trivial, rfl⟩
  · exact .inr ⟨rfl, rfl⟩
  · exact .inl ⟨by simp [busAllows], rfl⟩

/-- Bus writes and waits: all complete, or the trace stops at the write that never returns. -/
theorem play_cases (evs : List Event) (h : onlyBus evs = true) (s : State) :
    (busAllows (writeCount evs) s.env ∧ play evs s = .go (s.sent evs (writeCount evs))) ∨
    (∃ k, s.env.busHang = some k ∧ k < writeCount evs ∧ play evs s = .stop (s.cut (upToWrite k evs))) := by
  induction evs generalizing s with
  | nil =>
    refine .inl ⟨?_, by simp [play, sent_nil]⟩
    unfold busAllows
    split <;> simp
  | cons e evs ih =>
    cases e with
    | busWrite a b =>
      rcases busWrite_cases a b s with ⟨ha, hw⟩ | ⟨hh, hw⟩
      · rcases ih h (s.sent [.busWrite a b] 1) with ⟨ha', hp⟩ | ⟨k, hk, hlt, hp⟩
        · refine .inl ⟨?_, ?_⟩
          · rcases s with ⟨cfg, seq, la, lc, lr, bl, dcf, cs, sck, sr, wt, wa, ub, ui, rf, tr, env⟩
            rcases env with ⟨port, rq, hang, ti, ai, dr⟩
            cases hang with
            | none => trivial
            | some k =>
              simp only [busAllows, State.sent, Env.afterWrites, Option.map_some, writeCount_busWrite] at *
              omega
          · simp [play, hw, hp, sent_sent, Nat.add_comm]
        · refine .inr ⟨k + 1, ?_, by simpa using hlt, ?_⟩
          · rcases s with ⟨cfg, seq, la, lc, lr, bl, dcf, cs, sck, sr, wt, wa, ub, ui, rf, tr, env⟩
            rcases env with ⟨port, rq, hang, ti, ai, dr⟩
            cases hang with
            | none => simp [State.sent, Env.afterWrites] at hk
            | some j =>
              simp only [busAllows, State.sent, Env.afterWrites, Option.map_some, Option.some.injEq] at *
              omega
          · simp [play, hw, hp, cut_sent, upToWrite]
      · exact .inr ⟨0, hh, by simp, by simp [play, hw, upToWrite]⟩
    | wait d =>
      have hs : s.emit (.wait d) = s.sent [.wait d] 0 := by simp [State.sent, State.emit, afterWrites_zero]
      rcases ih h (s.sent [.wait d] 0) with ⟨ha', hp⟩ | ⟨k, hk, hlt, hp⟩
      · refine .inl ⟨by simpa [State.sent, afterWrites_zero] using ha', ?_⟩
        simp [play, hs, hp, sent_sent]
      · refine .inr ⟨k, by simpa [State.sent, afterWrites_zero] using hk, by simpa using hlt, ?_⟩
        simp [play, hs, hp, cut_sent, upToWrite]
    | setPin p v => simp [onlyBus] at h
    | samplePin v => simp [onlyBus] at h
    | adcSample x => simp [onlyBus] at h
    | respond st p => simp [onlyBus] at h

theorem play_append (xs ys : List Event) (s : State) : play (xs ++ ys) s = (play xs s).andThen (play ys) := by
  induction xs generalizing s with
  | nil => rfl
  | cons e xs ih =>
    cases e <;> simp [play, ih]
    cases busWrite _ _ s <;> simp [ih]

/-- When the writes are allowed, all events are played. -/
theorem play_allows {evs : List Event} (h : onlyBus evs = true) {s : State}
    (ha : busAllows (writeCount evs) s.env) : play evs s = .go (s.sent evs (writeCount evs)) := by
  rcases play_cases evs h s with ⟨-, hp⟩ | ⟨k, hk, hlt, -⟩
  · exact hp
  · simp only [busAllows, hk] at ha
    omega

/-- When the `k`-th write never returns, the events up to it are played. -/
theorem play_hangs {evs : List Event} (h : onlyBus evs = true) {s : State} {k : Nat}
    (hk : s.env.busHang = some k) (hlt : k < writeCount evs) :
    play evs s = .stop (s.cut (upToWrite k evs)) := by
  rcases play_cases evs h s with ⟨ha, -⟩ | ⟨j, hj, -, hp⟩
  · simp only [busAllows, hk] at ha
    omega
  · rw [hk] at hj
    cases hj
    exact hp

/-! ### The micro-operations of the LCD engine -/

/-- Setting Enable in a control byte is ORing its mask in (40_lcd_transactions.md R81). -/
theorem ctrl_enable (c : Config) (n : BitVec 4) (rs bl : Bool) :
    ctrl c n rs false bl ||| c.enMask = ctrl c n rs true bl := by
  cases rs <;> cases bl <;> simp [ctrl] <;> ac_rfl

/-- `NibbleTx` plays its events (40_lcd_transactions.md R81). -/
theorem nibbleTx_play (n : BitVec 4) (rs : Bool) (s : State) :
    nibbleTx n rs s = play (nibbleEvents s.cfg s.lcdAddr s.bl n rs) s := by
  simp only [nibbleTx, nibbleEvents, ctrl_enable, inOrder_cons]
  rfl

@[simp] theorem onlyBus_nibble (c : Config) (a : BitVec 7) (bl : Bool) (n : BitVec 4) (rs : Bool) :
    onlyBus (nibbleEvents c a bl n rs) = true := rfl
@[simp] theorem onlyBus_byte (c : Config) (a : BitVec 7) (bl : Bool) (v : Byte) (rs : Bool) :
    onlyBus (byteEvents c a bl v rs) = true := rfl
@[simp] theorem writeCount_nibble (c : Config) (a : BitVec 7) (bl : Bool) (n : BitVec 4) (rs : Bool) :
    writeCount (nibbleEvents c a bl n rs) = 2 := rfl
@[simp] theorem writeCount_byte (c : Config) (a : BitVec 7) (bl : Bool) (v : Byte) (rs : Bool) :
    writeCount (byteEvents c a bl v rs) = 4 := rfl

/-- A flow over bus events goes on to a flow over bus events: what the first leaves of the registers is what it
found. -/
theorem play_andThen {xs : List Event} (hx : onlyBus xs = true) {s : State} {f : State → Progress} {ys : List Event}
    (hf : ∀ n, f (s.sent xs n) = play ys (s.sent xs n)) :
    (play xs s).andThen f = play (xs ++ ys) s := by
  rw [play_append]
  rcases play_cases xs hx s with ⟨-, hp⟩ | ⟨k, -, -, hp⟩
  · rw [hp]; exact hf _
  · rw [hp]; rfl

/-- `ByteTx` plays its events (40_lcd_transactions.md R83). -/
theorem byteTx_play (v : Byte) (rs : Bool) (s : State) :
    byteTx v rs s = play (byteEvents s.cfg s.lcdAddr s.bl v rs) s := by
  have h : byteTx v rs s = (nibbleTx (highNibble v) rs s).andThen (nibbleTx (lowNibble v) rs) := by
    simp only [byteTx, inOrder_cons]
    cases nibbleTx (highNibble v) rs s with
    | go t => simp; cases nibbleTx (lowNibble v) rs t <;> rfl
    | stop t => rfl
  rw [h, nibbleTx_play, play_andThen (onlyBus_nibble ..) (ys := nibbleEvents s.cfg s.lcdAddr s.bl (lowNibble v) rs)]
  · rfl
  · intro n
    simp [nibbleTx_play, State.sent]

/-- `DcfSend` plays the display-control byte of the flags it finds (42_lcd_operations.md R98). -/
theorem dcfSend_play (s : State) :
    dcfSend s = play (byteEvents s.cfg s.lcdAddr s.bl (displayControlByte s.dcf) false) s :=
  byteTx_play _ _ _

/-- Bus events followed by a wait. -/
theorem play_then_wait {xs : List Event} (hx : onlyBus xs = true) (d : Nat) (s : State) :
    (play xs s).andThen (inOrder [wait d]) = play (xs ++ [.wait d]) s :=
  play_andThen hx fun _ => rfl

/-- The backlight write is one bus write (30_encoding.md R69). -/
theorem backlightWrite_play (s : State) :
    backlightWrite s = play [.busWrite s.lcdAddr (ctrl s.cfg 0 false false s.bl)] s := by
  simp only [backlightWrite, play]
  cases busWrite s.lcdAddr (ctrl s.cfg 0 false false s.bl) s <;> rfl

/-! ### The lines of a command -/

/-- A trace cut at a write: in the first part, or in the second after all of the first. -/
theorem upToWrite_append (m : Nat) (xs ys : List Event) :
    upToWrite m (xs ++ ys) =
      if m < writeCount xs then upToWrite m xs else xs ++ upToWrite (m - writeCount xs) ys := by
  induction xs generalizing m with
  | nil => simp
  | cons e xs ih =>
    cases e with
    | busWrite a b =>
      cases m with
      | zero => simp [upToWrite]
      | succ m =>
        simp only [List.cons_append, upToWrite, ih, writeCount_busWrite, Nat.add_lt_add_iff_right,
          Nat.add_sub_add_right]
        split <;> rfl
    | _ =>
      by_cases h : m < (busBytes xs).length <;> simp [upToWrite, ih, writeCount, busBytes, h]

/-- A line whose bus writes all complete hands over to the next line. -/
theorem runLines_sent {op : Instr} {k : Nat} {f : State → Progress} (fs : List (State → Progress)) {s : State}
    {evs : List Event} (hf : f (s.setSeq (.exec op k)) = play evs (s.setSeq (.exec op k)))
    (ho : onlyBus evs = true) (ha : busAllows (writeCount evs) s.env) :
    runLines op k (f :: fs) s =
      runLines op (k + 1) fs ((s.setSeq (.exec op k)).sent evs (writeCount evs)) := by
  rw [runLines_cons, hf, play_allows (s := s.setSeq (.exec op k)) ho ha]
  rfl

/-- A line with the write that never returns ends the command there. -/
theorem runLines_cut {op : Instr} {k : Nat} {f : State → Progress} (fs : List (State → Progress)) {s : State}
    {evs : List Event} (hf : f (s.setSeq (.exec op k)) = play evs (s.setSeq (.exec op k)))
    (ho : onlyBus evs = true) {m : Nat} (hm : s.env.busHang = some m) (hlt : m < writeCount evs) :
    runLines op k (f :: fs) s = .stop ((s.setSeq (.exec op k)).cut (upToWrite m evs)) := by
  rw [runLines_cons, hf, play_hangs (s := s.setSeq (.exec op k)) ho hm hlt]
  rfl

theorem busAllows_mono {m n : Nat} {e : Env} (h : m ≤ n) (ha : busAllows n e) : busAllows m e := by
  rcases e with ⟨port, rq, hang, ti, ai, dr⟩
  cases hang with
  | none => trivial
  | some k => exact Nat.le_trans h ha

/-- Draws for `m + n` writes are draws for `n` after the first `m`. -/
theorem busAllows_afterWrites {m n : Nat} {e : Env} (ha : busAllows (m + n) e) :
    busAllows n (e.afterWrites m) := by
  rcases e with ⟨port, rq, hang, ti, ai, dr⟩
  cases hang with
  | none => trivial
  | some k =>
    simp only [busAllows, Env.afterWrites, Option.map_some] at *
    omega

/-- Draws for `m` writes and then for `n` more are draws for `m + n`. -/
theorem busAllows_add {m n : Nat} {e : Env} (h : busAllows m e) (h' : busAllows n (e.afterWrites m)) :
    busAllows (m + n) e := by
  rcases e with ⟨port, rq, hang, ti, ai, dr⟩
  cases hang with
  | none => trivial
  | some k =>
    simp only [busAllows, Env.afterWrites, Option.map_some] at *
    omega

/-- The write that never returns, counted from before `n` writes that completed. -/
theorem busHang_before {m n : Nat} {e : Env} (h : busAllows n e) (h' : (e.afterWrites n).busHang = some m) :
    e.busHang = some (m + n) := by
  rcases e with ⟨port, rq, hang, ti, ai, dr⟩
  cases hang with
  | none => cases h'
  | some k =>
    simp only [busAllows, Env.afterWrites, Option.map_some, Option.some.injEq] at *
    omega

/-- Every command answers a next state. -/
theorem exec_next (i : Instr) (s : State) : ∃ t, exec i s = .next t := by
  cases i <;> exact ⟨_, rfl⟩

end Sys2Proof.Machine
end

