-- ==== Sys2Proof/Laws/Lcd.lean ====
section
/-! SUPPORT. A command of the LCD engine is a script: each line writes the two display flags and then plays bus
events. One theorem says what a script can do; it gives completion, hang and frame for every LCD command. -/

namespace Sys2Proof.Machine

/-- The two fields the lines of an LCD command may write. -/
abbrev LcdRegs := Bool × BitVec 3

/-- The backlight flag and the display flags of a state. -/
def State.lcdRegs (s : State) : LcdRegs := (s.bl, s.dcf)

/-- The state with these flags. -/
def State.setLcdRegs (s : State) (r : LcdRegs) : State := { s with bl := r.1, dcf := r.2 }

/-- A script: for each line the flags it leaves and the events it plays. -/
abbrev Script := List (LcdRegs × List Event)

/-- All events of a script. -/
def Script.events : Script → List Event
  | [] => []
  | (_, e) :: es => e ++ Script.events es

/-- The flags after a script that started from `r`. -/
def Script.regsAfter : LcdRegs → Script → LcdRegs
  | r, [] => r
  | _, (r, _) :: es => Script.regsAfter r es

/-- The line, from 0, that holds the `m`-th write of a script. -/
def Script.lineOf (m : Nat) : Script → Nat
  | [] => 0
  | (_, e) :: es => if m < writeCount e then 0 else Script.lineOf (m - writeCount e) es + 1

/-- The flags when the `m`-th write of a script is made. -/
def Script.regsAt (m : Nat) (r : LcdRegs) : Script → LcdRegs
  | [] => r
  | (r', e) :: es => if m < writeCount e then r' else Script.regsAt (m - writeCount e) r' es

/-- The lines `fs` follow the script, from flags `r`, in every state with the configuration, address and rows of
`s`. -/
def Follows (s : State) : LcdRegs → List (State → Progress) → Script → Prop
  | _, [], [] => True
  | r, f :: fs, (r', e) :: es =>
    onlyBus e = true ∧
    (∀ t : State, t.cfg = s.cfg → t.lcdAddr = s.lcdAddr → t.lcdRows = s.lcdRows → t.lcdRegs = r →
      f t = play e (t.setLcdRegs r')) ∧
    Follows s r' fs es
  | _, [], _ :: _ => False
  | _, _ :: _, [] => False

/-- The state a script that completes leaves before the response. -/
def scriptState (op : Instr) (k : Nat) (r : LcdRegs) (es : Script) (s : State) : State :=
  { s with
    seq := match es with
      | [] => s.seq
      | _ :: _ => .exec op (k + es.length - 1)
    bl := (es.regsAfter r).1, dcf := (es.regsAfter r).2,
    trace := s.trace ++ es.events, env := s.env.afterWrites (writeCount es.events) }

/-- What a script can do: all its writes complete and the last line hands over, or the command ends at the line of
the write that never returns. -/
theorem runLines_script {s₀ : State} {op : Instr} {es : Script} {fs rest : List (State → Progress)} {r : LcdRegs}
    (hf : Follows s₀ r fs es) (k : Nat) (s : State) (hc : s.cfg = s₀.cfg) (ha : s.lcdAddr = s₀.lcdAddr)
    (hl : s.lcdRows = s₀.lcdRows) (hr : s.lcdRegs = r) :
    (busAllows (writeCount es.events) s.env ∧
      runLines op k (fs ++ rest) s = runLines op (k + fs.length) rest (scriptState op k r es s)) ∨
    (∃ m, s.env.busHang = some m ∧ m < writeCount es.events ∧
      runLines op k (fs ++ rest) s = .stop (((s.setSeq (.exec op (k + es.lineOf m))).setLcdRegs
        (es.regsAt m r)).cut (upToWrite m es.events))) := by
  induction fs generalizing es r k s with
  | nil =>
    cases es with
    | nil =>
      refine .inl ⟨?_, ?_⟩
      · unfold busAllows; split <;> simp [Script.events]
      · cases s
        simp only [State.lcdRegs] at hr
        subst hr
        simp [scriptState, Script.events, Script.regsAfter, afterWrites_zero]
    | cons _ _ => cases hf
  | cons f fs ih =>
    cases es with
    | nil => cases hf
    | cons re es =>
      obtain ⟨r', e⟩ := re
      obtain ⟨ho, hfe, hf'⟩ := hf
      have hstep : f (s.setSeq (.exec op k)) = play e ((s.setSeq (.exec op k)).setLcdRegs r') :=
        hfe _ hc ha hl hr
      rw [List.cons_append, runLines_cons, hstep]
      rcases play_cases e ho ((s.setSeq (.exec op k)).setLcdRegs r') with ⟨hal, hp⟩ | ⟨m, hm, hlt, hp⟩
      · rw [hp, Progress.andThen_go]
        rcases ih hf' (k + 1) (((s.setSeq (.exec op k)).setLcdRegs r').sent e (writeCount e)) hc ha hl rfl with
          ⟨hal', hrun⟩ | ⟨m, hm, hlt, hrun⟩
        · refine .inl ⟨?_, ?_⟩
          · rw [Script.events, writeCount_append]
            exact busAllows_add hal hal'
          · rw [hrun]
            have hst : scriptState op (k + 1) r' es (((s.setSeq (.exec op k)).setLcdRegs r').sent e (writeCount e))
                = scriptState op k r ((r', e) :: es) s := by
              cases es <;>
                simp [scriptState, Script.events, Script.regsAfter, State.sent, State.setLcdRegs, State.setSeq,
                  afterWrites_add, writeCount_append, Nat.add_assoc, Nat.add_comm 1]
            rw [hst, List.length_cons, Nat.add_right_comm, Nat.add_assoc]
        · refine .inr ⟨m + writeCount e, ?_, ?_, ?_⟩
          · exact busHang_before hal hm
          · rw [Script.events, writeCount_append]; omega
          · rw [hrun]
            have hn : ¬ m + writeCount e < writeCount e := by omega
            simp [Script.lineOf, Script.regsAt, hn, Script.events, upToWrite_append, State.cut, State.sent,
              State.setLcdRegs, State.setSeq, Env.afterWrites, Nat.add_assoc, Nat.add_comm 1]
      · refine .inr ⟨m, hm, ?_, ?_⟩
        · rw [Script.events, writeCount_append]; omega
        · rw [hp]
          simp [Script.lineOf, Script.regsAt, hlt, Script.events, upToWrite_append]

/-- A script that then responds OK: the whole command. -/
theorem command_script {op : Instr} {es : Script} {fs : List (State → Progress)} {s : State}
    (hf : Follows s s.lcdRegs fs es) :
    (busAllows (writeCount es.events) s.env ∧
      command op (fs ++ [respondOk]) s = .next { s with
        seq := .ready, bl := (es.regsAfter s.lcdRegs).1, dcf := (es.regsAfter s.lcdRegs).2,
        trace := s.trace ++ es.events ++ [.respond 0x00 []],
        env := s.env.afterWrites (writeCount es.events) }) ∨
    (∃ m, s.env.busHang = some m ∧ m < writeCount es.events ∧
      command op (fs ++ [respondOk]) s = .next { s with
        seq := .exec op (es.lineOf m), bl := (es.regsAt m s.lcdRegs).1, dcf := (es.regsAt m s.lcdRegs).2,
        trace := s.trace ++ upToWrite m es.events, env := { s.env with busHang := some 0 } }) := by
  rcases runLines_script (op := op) (rest := [respondOk]) hf 0 s rfl rfl rfl rfl with ⟨ha, hr⟩ | ⟨m, hm, hlt, hr⟩
  · refine .inl ⟨ha, ?_⟩
    rw [command, hr]
    rfl
  · refine .inr ⟨m, hm, hlt, ?_⟩
    rw [command, hr]
    simp [State.cut, State.setLcdRegs, State.setSeq]

/-! ### The script of each command -/

/-- A display-control or byte line. -/
theorem byteTx_line (v : Byte) (rs : Bool) (s t : State) (hc : t.cfg = s.cfg) (ha : t.lcdAddr = s.lcdAddr) :
    byteTx v rs t = play (byteEvents s.cfg s.lcdAddr t.bl v rs) t := by
  rw [byteTx_play, hc, ha]

theorem nibbleTx_line (n : BitVec 4) (s t : State) (hc : t.cfg = s.cfg) (ha : t.lcdAddr = s.lcdAddr) :
    nibbleTx n false t = play (nibbleEvents s.cfg s.lcdAddr t.bl n false) t := by
  rw [nibbleTx_play, hc, ha]

theorem setLcdRegs_self {t : State} {r : LcdRegs} (h : t.lcdRegs = r) : t.setLcdRegs r = t := by
  subst h
  rfl

/-- The lines of an LCD command before its response; none for another command. -/
def lcdLines : Instr → List (State → Progress)
  | .lcdInit =>
    [inOrder [nibbleTx 0x3 false, wait initDelay1], inOrder [nibbleTx 0x3 false, wait initDelay2],
     inOrder [nibbleTx 0x3 false, wait initDelay3], nibbleTx 0x2 false, byteTx cmdFunctionSet false,
     inOrder [update (·.setDcf initFlags), dcfSend], inOrder [byteTx cmdClear false, wait postClearDelay],
     byteTx cmdEntryMode false]
  | .lcdCmd b => [byteTx b false]
  | .lcdData b => [byteTx b true]
  | .lcdClear => [byteTx cmdClear false, wait postClearDelay]
  | .lcdHome => [byteTx cmdHome false, wait postHomeDelay]
  | .lcdSetCursor col row => [checkRow row, update id, byteTx (ddramCommand col row) false]
  | .lcdDisplayOn => [update (fun s => s.setDcf (setFlag s.dcf flagDisplay)), dcfSend]
  | .lcdDisplayOff => [update (fun s => s.setDcf (clearFlag s.dcf flagDisplay)), dcfSend]
  | .lcdCursorOn => [update (fun s => s.setDcf (setFlag s.dcf flagCursor)), dcfSend]
  | .lcdCursorOff => [update (fun s => s.setDcf (clearFlag s.dcf flagCursor)), dcfSend]
  | .lcdBlinkOn => [update (fun s => s.setDcf (setFlag s.dcf flagBlink)), dcfSend]
  | .lcdBlinkOff => [update (fun s => s.setDcf (clearFlag s.dcf flagBlink)), dcfSend]
  | .lcdBacklightOn => [update (·.setBl true), backlightWrite]
  | .lcdBacklightOff => [update (·.setBl false), backlightWrite]
  | .tcRead | .ambRead | .filtPushTc _ | .filtPushAmb _ | .compensate _ _ | .reserved _ => []

/-- The script of a toggle that leaves the flags `d`. -/
def toggleScript (s : State) (d : BitVec 3) : Script :=
  [((s.bl, d), []), ((s.bl, d), byteEvents s.cfg s.lcdAddr s.bl (displayControlByte d) false)]

/-- The script of an LCD command started in `s`; empty for another command. -/
def scriptOf (s : State) : Instr → Script
  | .lcdInit =>
    [((s.bl, s.dcf), nibbleEvents s.cfg s.lcdAddr s.bl 0x3 false ++ [.wait initDelay1]),
     ((s.bl, s.dcf), nibbleEvents s.cfg s.lcdAddr s.bl 0x3 false ++ [.wait initDelay2]),
     ((s.bl, s.dcf), nibbleEvents s.cfg s.lcdAddr s.bl 0x3 false ++ [.wait initDelay3]),
     ((s.bl, s.dcf), nibbleEvents s.cfg s.lcdAddr s.bl 0x2 false),
     ((s.bl, s.dcf), byteEvents s.cfg s.lcdAddr s.bl cmdFunctionSet false),
     ((s.bl, initFlags), byteEvents s.cfg s.lcdAddr s.bl (displayControlByte initFlags) false),
     ((s.bl, initFlags), byteEvents s.cfg s.lcdAddr s.bl cmdClear false ++ [.wait postClearDelay]),
     ((s.bl, initFlags), byteEvents s.cfg s.lcdAddr s.bl cmdEntryMode false)]
  | .lcdCmd b => [((s.bl, s.dcf), byteEvents s.cfg s.lcdAddr s.bl b false)]
  | .lcdData b => [((s.bl, s.dcf), byteEvents s.cfg s.lcdAddr s.bl b true)]
  | .lcdClear =>
    [((s.bl, s.dcf), byteEvents s.cfg s.lcdAddr s.bl cmdClear false), ((s.bl, s.dcf), [.wait postClearDelay])]
  | .lcdHome =>
    [((s.bl, s.dcf), byteEvents s.cfg s.lcdAddr s.bl cmdHome false), ((s.bl, s.dcf), [.wait postHomeDelay])]
  | .lcdSetCursor col row =>
    [((s.bl, s.dcf), []), ((s.bl, s.dcf), []),
     ((s.bl, s.dcf), byteEvents s.cfg s.lcdAddr s.bl (ddramCommand col row) false)]
  | .lcdDisplayOn => toggleScript s (setFlag s.dcf flagDisplay)
  | .lcdDisplayOff => toggleScript s (clearFlag s.dcf flagDisplay)
  | .lcdCursorOn => toggleScript s (setFlag s.dcf flagCursor)
  | .lcdCursorOff => toggleScript s (clearFlag s.dcf flagCursor)
  | .lcdBlinkOn => toggleScript s (setFlag s.dcf flagBlink)
  | .lcdBlinkOff => toggleScript s (clearFlag s.dcf flagBlink)
  | .lcdBacklightOn =>
    [((true, s.dcf), []), ((true, s.dcf), [.busWrite s.lcdAddr (ctrl s.cfg 0 false false true)])]
  | .lcdBacklightOff =>
    [((false, s.dcf), []), ((false, s.dcf), [.busWrite s.lcdAddr (ctrl s.cfg 0 false false false)])]
  | .tcRead | .ambRead | .filtPushTc _ | .filtPushAmb _ | .compensate _ _ | .reserved _ => []

/-- The lines of a toggle follow its script. -/
theorem toggle_follows (s : State) (f : BitVec 3 → BitVec 3) :
    Follows s s.lcdRegs [update (fun t => t.setDcf (f t.dcf)), dcfSend] (toggleScript s (f s.dcf)) := by
  refine ⟨rfl, ?_, rfl, ?_, trivial⟩
  · intro t hc ha hl hr
    simp only [State.lcdRegs, Prod.mk.injEq] at hr
    simp [play, State.setLcdRegs, State.setDcf, ← hr.1, hr.2]
  · intro t hc ha hl hr
    simp only [State.lcdRegs, Prod.mk.injEq] at hr
    have hs : t.setLcdRegs (s.bl, f s.dcf) = t := setLcdRegs_self (by simp [State.lcdRegs, hr.1, hr.2])
    rw [hs, dcfSend, byteTx_line _ _ s t hc ha, hr.1, hr.2]

/-- The lines of a backlight command follow its script. -/
theorem backlight_follows (s : State) (on : Bool) :
    Follows s s.lcdRegs [update (·.setBl on), backlightWrite]
      [((on, s.dcf), []), ((on, s.dcf), [.busWrite s.lcdAddr (ctrl s.cfg 0 false false on)])] := by
  refine ⟨rfl, ?_, rfl, ?_, trivial⟩
  · intro t hc ha hl hr
    simp only [State.lcdRegs, Prod.mk.injEq] at hr
    simp [play, State.setLcdRegs, State.setBl, ← hr.2]
  · intro t hc ha hl hr
    have hs : t.setLcdRegs (on, s.dcf) = t := setLcdRegs_self hr
    simp only [State.lcdRegs, Prod.mk.injEq] at hr
    rw [hs, backlightWrite_play, hc, ha, hr.1]

/-- The lines of an LCD command follow its script, an undefined row apart. -/
theorem lcd_follows (s : State) (i : Instr)
    (hrow : ∀ col row, i = .lcdSetCursor col row → rowUndefined s.lcdRows row = false) :
    Follows s s.lcdRegs (lcdLines i) (scriptOf s i) := by
  have hself : ∀ t : State, t.lcdRegs = (s.bl, s.dcf) → t.bl = s.bl ∧ t.setLcdRegs (s.bl, s.dcf) = t := by
    intro t hr
    refine ⟨?_, setLcdRegs_self hr⟩
    simp only [State.lcdRegs, Prod.mk.injEq] at hr
    exact hr.1
  have hbyte : ∀ (v : Byte) (rs : Bool) (t : State), t.cfg = s.cfg → t.lcdAddr = s.lcdAddr →
      t.lcdRegs = (s.bl, s.dcf) →
      byteTx v rs t = play (byteEvents s.cfg s.lcdAddr s.bl v rs) (t.setLcdRegs (s.bl, s.dcf)) := by
    intro v rs t hc ha hr
    rw [(hself t hr).2, byteTx_line v rs s t hc ha, (hself t hr).1]
  have hwait : ∀ (d : Nat) (t : State), t.lcdRegs = (s.bl, s.dcf) →
      wait d t = play [.wait d] (t.setLcdRegs (s.bl, s.dcf)) := by
    intro d t hr
    rw [(hself t hr).2]
    rfl
  cases i with
  | lcdInit =>
    have hinit : ∀ t : State, t.lcdRegs = (s.bl, initFlags) →
        t.bl = s.bl ∧ t.setLcdRegs (s.bl, initFlags) = t := by
      intro t hr
      refine ⟨?_, setLcdRegs_self hr⟩
      simp only [State.lcdRegs, Prod.mk.injEq] at hr
      exact hr.1
    have hnib : ∀ (d : Nat) (t : State), t.cfg = s.cfg → t.lcdAddr = s.lcdAddr →
        t.lcdRegs = (s.bl, s.dcf) → inOrder [nibbleTx 0x3 false, wait d] t =
          play (nibbleEvents s.cfg s.lcdAddr s.bl 0x3 false ++ [.wait d]) (t.setLcdRegs (s.bl, s.dcf)) := by
      intro d t hc ha hr
      rw [(hself t hr).2, inOrder_cons, nibbleTx_line _ s t hc ha, play_then_wait rfl, (hself t hr).1]
    refine ⟨rfl, fun t hc ha _ hr => hnib _ t hc ha hr, rfl, fun t hc ha _ hr => hnib _ t hc ha hr,
      rfl, fun t hc ha _ hr => hnib _ t hc ha hr, rfl, ?_, rfl, fun t hc ha _ hr => hbyte _ _ t hc ha hr,
      rfl, ?_, rfl, ?_, rfl, ?_, trivial⟩
    · intro t hc ha _ hr
      rw [(hself t hr).2, nibbleTx_line _ s t hc ha, (hself t hr).1]
    · intro t hc ha _ hr
      have hb := (hself t hr).1
      simp only [inOrder_cons, update_go, Progress.andThen_go]
      rw [show t.setDcf initFlags = t.setLcdRegs (s.bl, initFlags) by
        simp [State.setDcf, State.setLcdRegs, ← hb]]
      rw [dcfSend, byteTx_line _ _ s (t.setLcdRegs (s.bl, initFlags)) hc ha]
      simp only [State.setLcdRegs]
      generalize play _ _ = x
      cases x <;> rfl
    · intro t hc ha _ hr
      rw [(hinit t hr).2, inOrder_cons, byteTx_line _ _ s t hc ha, play_then_wait rfl, (hinit t hr).1]
    · intro t hc ha _ hr
      rw [(hinit t hr).2, byteTx_line _ _ s t hc ha, (hinit t hr).1]
  | lcdCmd b => exact ⟨rfl, fun t hc ha _ hr => hbyte _ _ t hc ha hr, trivial⟩
  | lcdData b => exact ⟨rfl, fun t hc ha _ hr => hbyte _ _ t hc ha hr, trivial⟩
  | lcdClear =>
    exact ⟨rfl, fun t hc ha _ hr => hbyte _ _ t hc ha hr, rfl, fun t _ _ _ hr => hwait _ t hr, trivial⟩
  | lcdHome =>
    exact ⟨rfl, fun t hc ha _ hr => hbyte _ _ t hc ha hr, rfl, fun t _ _ _ hr => hwait _ t hr, trivial⟩
  | lcdSetCursor col row =>
    refine ⟨rfl, ?_, rfl, ?_, rfl, fun t hc ha _ hr => hbyte _ _ t hc ha hr, trivial⟩
    · intro t _ _ hl hr
      rw [(hself t hr).2, checkRow, hl, hrow col row rfl]
      rfl
    · intro t _ _ _ hr
      rw [(hself t hr).2]
      rfl
  | lcdDisplayOn => exact toggle_follows s (setFlag · flagDisplay)
  | lcdDisplayOff => exact toggle_follows s (clearFlag · flagDisplay)
  | lcdCursorOn => exact toggle_follows s (setFlag · flagCursor)
  | lcdCursorOff => exact toggle_follows s (clearFlag · flagCursor)
  | lcdBlinkOn => exact toggle_follows s (setFlag · flagBlink)
  | lcdBlinkOff => exact toggle_follows s (clearFlag · flagBlink)
  | lcdBacklightOn => exact backlight_follows s true
  | lcdBacklightOff => exact backlight_follows s false
  | tcRead | ambRead | filtPushTc _ | filtPushAmb _ | compensate _ _ | reserved _ => exact trivial

/-- An LCD command is its lines and the response OK. -/
theorem exec_lcd (i : Instr) (h : isLcd i = true) (s : State) :
    exec i s = command i (lcdLines i ++ [respondOk]) s := by
  cases i
  case lcdInit => simp only [exec, execLcdInit, lcdLines, List.cons_append, List.nil_append]
  all_goals first | exact absurd h Bool.false_ne_true | rfl

/-- A row past the display raises `Undefined` at line 0, with no event (42_lcd_operations.md R97). -/
theorem exec_setCursor_undefined (s : State) (col row : Byte) (h : rowUndefined s.lcdRows row = true) :
    exec (.lcdSetCursor col row) s = .next { s with
      seq := .exec (.lcdSetCursor col row) 0, ub := true,
      ubInfo := match s.ubInfo with
        | none => some (.setCursorRow row)
        | some first => some first } := by
  have hs : exec (.lcdSetCursor col row) s =
      .next (raiseUndefined (.setCursorRow row) (s.setSeq (.exec (.lcdSetCursor col row) 0))).state := by
    simp [exec, execLcdSetCursor, command, checkRow, h, State.setSeq]
    rfl
  rw [hs]
  cases s with
  | mk _ _ _ _ _ _ _ _ _ _ _ _ _ info => cases info <;> rfl

/-- What an LCD command can do: respond after its whole script, stop at the write that never returns, or, for an
undefined row, raise `Undefined`. -/
theorem exec_lcd_cases (i : Instr) (h : isLcd i = true) (s : State) :
    (busAllows (writeCount (scriptOf s i).events) s.env ∧
      exec i s = .next { s with
        seq := .ready, bl := ((scriptOf s i).regsAfter s.lcdRegs).1, dcf := ((scriptOf s i).regsAfter s.lcdRegs).2,
        trace := s.trace ++ (scriptOf s i).events ++ [.respond 0x00 []],
        env := s.env.afterWrites (writeCount (scriptOf s i).events) }) ∨
    (∃ m, s.env.busHang = some m ∧ m < writeCount (scriptOf s i).events ∧
      exec i s = .next { s with
        seq := .exec i ((scriptOf s i).lineOf m), bl := ((scriptOf s i).regsAt m s.lcdRegs).1,
        dcf := ((scriptOf s i).regsAt m s.lcdRegs).2,
        trace := s.trace ++ upToWrite m (scriptOf s i).events, env := { s.env with busHang := some 0 } }) ∨
    (∃ col row, i = .lcdSetCursor col row ∧ rowUndefined s.lcdRows row = true) := by
  by_cases hrow : ∀ col row, i = .lcdSetCursor col row → rowUndefined s.lcdRows row = false
  · rw [exec_lcd i h]
    rcases command_script (op := i) (lcd_follows s i hrow) with hg | hh
    · exact .inl hg
    · exact .inr (.inl hh)
  · simp only [not_forall, Bool.not_eq_false] at hrow
    obtain ⟨col, row, hi, hu⟩ := hrow
    exact .inr (.inr ⟨col, row, hi, hu⟩)

/-- A script leaves flags that were there or that one of its lines wrote. -/
theorem regsAfter_mem (es : Script) (r : LcdRegs) : es.regsAfter r ∈ r :: es.map Prod.fst := by
  induction es generalizing r with
  | nil => simp [Script.regsAfter]
  | cons a es ih =>
    have := ih a.1
    simp only [Script.regsAfter, List.map_cons, List.mem_cons] at *
    tauto

/-- At any write of a script the flags are those it started from or those one of its lines wrote. -/
theorem regsAt_mem (es : Script) (m : Nat) (r : LcdRegs) : es.regsAt m r ∈ r :: es.map Prod.fst := by
  induction es generalizing m r with
  | nil => simp [Script.regsAt]
  | cons a es ih =>
    have := ih (m - writeCount a.2) a.1
    simp only [Script.regsAt]
    split
    · simp
    · simp only [List.map_cons, List.mem_cons] at *
      tauto

/-- The scripts hold bus writes and waits only. -/
theorem onlyBus_script (s : State) (i : Instr) : onlyBus (scriptOf s i).events = true := by
  cases i <;> simp only [scriptOf, toggleScript, Script.events] <;> rfl

end Sys2Proof.Machine
end

