-- ==== Sys2Proof/Laws/Numerics.lean ====
section
/-! SUPPORT. The number format: every number is found again from its units, and what is found denotes them. -/

namespace Sys2Proof

/-- The magnitude of a `Num` in units. -/
def Num64.mag (n : Num64) : Nat := n.significand * 2 ^ (n.expo.val - 1)

theorem Num64.toUnits_eq (n : Num64) : n.toUnits = if n.neg then -(n.mag : Int) else (n.mag : Int) := rfl

theorem Num64.natAbs_toUnits (n : Num64) : n.toUnits.natAbs = n.mag := by
  rw [Num64.toUnits_eq]
  split <;> simp

theorem Num64.significand_lt (n : Num64) : n.significand < 2 ^ 53 := by
  have := n.frac.isLt
  unfold Num64.significand
  split <;> omega

/-- A zero exponent: the magnitude is the fraction. -/
theorem Num64.mag_of_expo_zero {n : Num64} (h : n.expo.val = 0) : n.mag = n.frac.toNat := by
  simp [Num64.mag, Num64.significand, h]

/-- A normal number's magnitude has its leading bit at `52 + (expo - 1)`. -/
theorem Num64.log2_mag {n : Num64} (h : n.expo.val ≠ 0) : n.mag.log2 = 52 + (n.expo.val - 1) := by
  have hf := n.frac.isLt
  have hs : n.significand = 2 ^ 52 + n.frac.toNat := by simp [Num64.significand, h]
  have hpos : 0 < 2 ^ (n.expo.val - 1) := Nat.two_pow_pos _
  have hne : n.mag ≠ 0 := by
    rw [Num64.mag, hs]
    exact Nat.mul_ne_zero (by omega) (by omega)
  rw [Nat.log2_eq_iff hne]
  rw [Num64.mag, hs]
  constructor
  · rw [Nat.pow_add]
    exact Nat.mul_le_mul_right _ (by omega)
  · have : 2 ^ (52 + (n.expo.val - 1) + 1) = 2 ^ 53 * 2 ^ (n.expo.val - 1) := by
      rw [← Nat.pow_add]
      congr 1
      omega
    rw [this]
    exact Nat.mul_lt_mul_of_pos_right (by omega) hpos

theorem Num64.isZero_iff (n : Num64) : n.isZero = true ↔ n.mag = 0 := by
  have hf := n.frac.isLt
  by_cases h : n.expo.val = 0
  · rw [Num64.mag_of_expo_zero h]
    simp [Num64.isZero, h, ← BitVec.toNat_inj]
  · have hs : n.significand = 2 ^ 52 + n.frac.toNat := by simp [Num64.significand, h]
    have hpos : 0 < 2 ^ (n.expo.val - 1) := Nat.two_pow_pos _
    have hne : n.mag ≠ 0 := by
      rw [Num64.mag, hs]
      exact Nat.mul_ne_zero (by omega) (by omega)
    simp only [Num64.isZero, Bool.and_eq_true, beq_iff_eq]
    exact ⟨fun hz => absurd hz.1 h, fun hz => absurd hz hne⟩

theorem Num64.canon_toUnits (n : Num64) : n.canon.toUnits = n.toUnits := by
  unfold Num64.canon
  split
  · next h =>
    have hm := (Num64.isZero_iff n).1 h
    rw [Num64.toUnits_eq n, hm]
    simp [Num64.toUnits, Num64.zero, Num64.significand]
  · rfl

/-- `Num` from its units, up to the sign of zero. -/
theorem Num64.ofUnits?_toUnits (n : Num64) : Num64.ofUnits? n.toUnits = some n.canon := by
  have hf := n.frac.isLt
  have hneg : n.mag ≠ 0 → decide (n.toUnits < 0) = n.neg := by
    intro hm
    rw [Num64.toUnits_eq]
    cases n.neg <;> simp; omega
  unfold Num64.ofUnits?
  simp only [Num64.natAbs_toUnits]
  by_cases h : n.expo.val = 0
  · have hm := Num64.mag_of_expo_zero h
    rw [if_pos (by omega)]
    by_cases hz : n.mag = 0
    · have hzero := (Num64.isZero_iff n).2 hz
      have hu : n.toUnits = 0 := by rw [Num64.toUnits_eq, hz]; simp
      simp [Num64.canon, hzero, hu, hz, Num64.zero]
    · have hnz : n.isZero = false := by
        rw [Bool.eq_false_iff]
        exact fun hh => hz ((Num64.isZero_iff n).1 hh)
      simp only [Num64.canon, hnz, hneg hz, hm, Option.some.injEq]
      rcases n with ⟨neg, expo, frac⟩
      simp only [Num64.mk.injEq, Bool.false_eq_true, if_false, true_and]
      exact ⟨(Fin.ext h).symm, by simp⟩
  · have hs : n.significand = 2 ^ 52 + n.frac.toNat := by simp [Num64.significand, h]
    have hpos : 0 < 2 ^ (n.expo.val - 1) := Nat.two_pow_pos _
    have hge : 2 ^ 52 ≤ n.mag := by
      rw [Num64.mag, hs]
      calc 2 ^ 52 = 2 ^ 52 * 1 := by omega
        _ ≤ _ := Nat.mul_le_mul (by omega) hpos
    have hz : n.mag ≠ 0 := by omega
    have hnz : n.isZero = false := by
      rw [Bool.eq_false_iff]
      exact fun hh => hz ((Num64.isZero_iff n).1 hh)
    have hlog := Num64.log2_mag h
    have hsh : n.mag.log2 - 52 = n.expo.val - 1 := by omega
    have hlt := n.expo.isLt
    have hmod : n.mag % 2 ^ (n.expo.val - 1) = 0 := Nat.mul_mod_left _ _
    have hdiv : n.mag / 2 ^ (n.expo.val - 1) = 2 ^ 52 + n.frac.toNat := by
      rw [Num64.mag, Nat.mul_div_cancel _ hpos, hs]
    rw [if_neg (by omega), dif_pos (by rw [hsh]; exact ⟨by omega, hmod⟩)]
    simp only [Num64.canon, hnz, hneg hz, hsh, hdiv, Option.some.injEq]
    rcases n with ⟨neg, expo, frac⟩
    simp only [Num64.mk.injEq, Bool.false_eq_true, if_false, true_and]
    refine ⟨Fin.ext (by simp only at *; omega), ?_⟩
    apply BitVec.eq_of_toNat_eq
    simp only [BitVec.toNat_ofNat]
    simp only at hf
    omega

/-- A whole multiple of `2^sh` whose leading bit is at `52 + sh` is the magnitude of the `Num` with its leading 53
bits. -/
theorem Num64.mag_normal {a sh : Nat} (neg : Bool) (h1 : sh + 1 < 2047) (h2 : a % 2 ^ sh = 0)
    (hlo : 2 ^ (52 + sh) ≤ a) (hhi : a < 2 ^ (53 + sh)) :
    Num64.mag ⟨neg, ⟨sh + 1, h1⟩, BitVec.ofNat 52 (a / 2 ^ sh)⟩ = a := by
  have hpos : 0 < 2 ^ sh := Nat.two_pow_pos _
  have hq : a / 2 ^ sh * 2 ^ sh = a := Nat.div_mul_cancel (Nat.dvd_of_mod_eq_zero h2)
  have h52 : 2 ^ 52 ≤ a / 2 ^ sh := by
    rw [Nat.le_div_iff_mul_le hpos, ← Nat.pow_add]
    exact hlo
  have h53 : a / 2 ^ sh < 2 ^ 53 := by
    rw [Nat.div_lt_iff_lt_mul hpos, ← Nat.pow_add]
    exact hhi
  have hfr : 2 ^ 52 + (BitVec.ofNat 52 (a / 2 ^ sh)).toNat = a / 2 ^ sh := by
    rw [BitVec.toNat_ofNat]
    omega
  simp only [Num64.mag, Num64.significand, Nat.succ_ne_zero, if_false, Nat.add_sub_cancel]
  rw [hfr, hq]

/-- The `Num` found for a number of units denotes it. -/
theorem Num64.toUnits_of_ofUnits? {u : Int} {n : Num64} (h : Num64.ofUnits? u = some n) : n.toUnits = u := by
  unfold Num64.ofUnits? at h
  simp only at h
  split at h
  · next hlt =>
    cases h
    simp only [Num64.toUnits, Num64.significand, BitVec.toNat_ofNat, Nat.mod_eq_of_lt hlt, Fin.val_zero,
      if_true, Nat.zero_sub, Nat.pow_zero, Nat.mul_one, decide_eq_true_eq]
    split <;> omega
  · next hge =>
    split at h
    · next hc =>
      cases h
      have hne : u.natAbs ≠ 0 := by omega
      have hlog : 52 ≤ u.natAbs.log2 := (Nat.le_log2 hne).2 (by omega)
      have hlt : u.natAbs < 2 ^ (u.natAbs.log2 + 1) := (Nat.log2_lt hne).1 (by omega)
      have hle : 2 ^ u.natAbs.log2 ≤ u.natAbs := (Nat.le_log2 hne).1 (Nat.le_refl _)
      rw [Num64.toUnits_eq, Num64.mag_normal _ hc.1 hc.2]
      · simp only [decide_eq_true_eq]
        split <;> omega
      · rwa [show 52 + (u.natAbs.log2 - 52) = u.natAbs.log2 by omega]
      · rwa [show 53 + (u.natAbs.log2 - 52) = u.natAbs.log2 + 1 by omega]
    · cases h

/-- The two zeros denote 0. -/
@[simp] theorem Num64.toUnits_zero (neg : Bool) : (Num64.zero neg).toUnits = 0 := by
  cases neg <;> rfl

@[simp] theorem Num64.toQ_zero (neg : Bool) : (Num64.zero neg).toQ = 0 := by
  rw [Num64.toQ, Num64.toUnits_zero, Int.cast_zero, zero_div]

/-- The sign of zero does not change what is denoted. -/
@[simp] theorem Num64.canon_toQ (n : Num64) : n.canon.toQ = n.toQ := by
  simp only [Num64.toQ, Num64.canon_toUnits]

theorem unitsPerOne_ne_zero : ((unitsPerOne : Nat) : Rat) ≠ 0 := by
  have h : unitsPerOne ≠ 0 := Nat.pos_iff_ne_zero.1 (Nat.two_pow_pos _)
  exact_mod_cast h

/-- The exponent field of an encoding. -/
@[simp] theorem Num64.toBits_expo (n : Num64) : n.toBits.extractLsb' 52 11 = BitVec.ofNat 11 n.expo.val := by
  apply BitVec.eq_of_getLsbD_eq
  intro i hi
  simp only [Num64.toBits, BitVec.getLsbD_extractLsb', BitVec.getLsbD_append, hi, decide_true, Bool.true_and,
    show ¬ (52 + i < 52) by omega, decide_false, if_false, show 52 + i - 52 = i by omega, if_true]

/-- The fraction field of an encoding. -/
@[simp] theorem Num64.toBits_frac (n : Num64) : n.toBits.extractLsb' 0 52 = n.frac := by
  apply BitVec.eq_of_getLsbD_eq
  intro i hi
  simp only [Num64.toBits, BitVec.getLsbD_extractLsb', BitVec.getLsbD_append, hi, decide_true, Bool.true_and,
    Nat.zero_add, if_true]

/-- The sign bit of an encoding. -/
theorem Num64.toBits_sign (n : Num64) : n.toBits.getLsbD 63 = n.neg := by
  simp only [Num64.toBits, BitVec.getLsbD_append, BitVec.getLsbD_ofBool]
  simp

theorem maxFinite_pos : 0 < maxFinite :=
  Nat.cast_pos.2 (Nat.mul_pos (by decide) (Nat.two_pow_pos _))

/-- What `limitInf` can answer when some of the rationals is out of range: a finite value or an infinity of the sign
of an overflow. -/
theorem limitInf_cases {qs : List Rat} (v : Value) (h : ∃ x ∈ qs, inRange x = false) :
    (∃ n, limitInf qs v = .num n) ∨
    ((∃ x ∈ qs, maxFinite < x) ∧ limitInf qs v = .inf false) ∨
    ((∃ x ∈ qs, x < -maxFinite) ∧ limitInf qs v = .inf true) := by
  obtain ⟨x, hx, hr⟩ := h
  have hout : x < -maxFinite ∨ maxFinite < x := by
    simp only [inRange, Bool.and_eq_false_iff, decide_eq_false_iff_not, not_le] at hr
    exact hr
  cases v with
  | num n => exact .inl ⟨n, rfl⟩
  | inf neg =>
    right
    rw [limitInf]
    generalize maxFinite = m at *
    cases neg
    · by_cases ha : ∃ y ∈ qs, m < y
      · refine .inl ⟨ha, if_pos ?_⟩
        obtain ⟨y, hy, hd⟩ := ha
        exact List.any_eq_true.2 ⟨y, hy, decide_eq_true hd⟩
      · refine .inr ⟨⟨x, hx, hout.resolve_right fun h => ha ⟨x, hx, h⟩⟩, if_neg ?_⟩
        intro hc
        obtain ⟨y, hy, hd⟩ := List.any_eq_true.1 hc
        exact ha ⟨y, hy, of_decide_eq_true hd⟩
    · by_cases ha : ∃ y ∈ qs, y < -m
      · refine .inr ⟨ha, if_pos ?_⟩
        obtain ⟨y, hy, hd⟩ := ha
        exact List.any_eq_true.2 ⟨y, hy, decide_eq_true hd⟩
      · refine .inl ⟨⟨x, hx, hout.resolve_left fun h => ha ⟨x, hx, h⟩⟩, if_neg ?_⟩
        intro hc
        obtain ⟨y, hy, hd⟩ := List.any_eq_true.1 hc
        exact ha ⟨y, hy, of_decide_eq_true hd⟩

/-- What `realize` can answer: the exact value up to the sign of zero, a finite value within the range, or a free
value. -/
theorem realize_cases (free : FreeResult) (steps : List Rat) (q : Rat) :
    ((∀ x ∈ steps, (Num64.ofQ? x).isSome) ∧ ∃ v, Num64.ofQ? q = some v ∧
      realize free steps q = .num (if v.isZero then Num64.zero free.zeroNeg else v)) ∨
    (inRange q = true ∧ (∀ x ∈ steps, inRange x = true) ∧ realize free steps q = .num free.finite) ∨
    (¬ (inRange q = true ∧ ∀ x ∈ steps, inRange x = true) ∧ realize free steps q = limitInf (q :: steps) free.any) := by
  unfold realize
  split
  · next v ha hq => exact .inl ⟨List.all_eq_true.1 ha, v, hq, rfl⟩
  · by_cases h : inRange q = true ∧ ∀ x ∈ steps, inRange x = true
    · refine .inr (.inl ⟨h.1, h.2, ?_⟩)
      rw [if_pos (by rw [Bool.and_eq_true, List.all_eq_true]; exact h)]
    · refine .inr (.inr ⟨h, ?_⟩)
      rw [if_neg (by rw [Bool.and_eq_true, List.all_eq_true]; exact h)]

/-- An infinity that `realize` answers has an overflow of its sign behind it. -/
theorem realize_eq_inf {free : FreeResult} {steps : List Rat} {q : Rat} {neg : Bool}
    (h : realize free steps q = .inf neg) :
    ∃ x ∈ q :: steps, if neg then x < -maxFinite else maxFinite < x := by
  obtain ⟨-, v, -, hv⟩ | ⟨-, -, hv⟩ | ⟨hr, hv⟩ := realize_cases free steps q
  · cases hv.symm.trans h
  · cases hv.symm.trans h
  · have hout : ∃ x ∈ q :: steps, inRange x = false := by
      by_contra hc
      simp only [not_exists, not_and, Bool.not_eq_false, List.forall_mem_cons] at hc
      exact hr hc
    obtain ⟨n, hn⟩ | ⟨ho, hn⟩ | ⟨ho, hn⟩ := limitInf_cases free.any hout <;>
      cases (hv.trans hn).symm.trans h
    · exact ho
    · exact ho

/-- `numerics.amb` of the sample 0 is a zero. -/
theorem Machine.numericsAmb_zero (vref : Rat) (fullScale : Nat) :
    numericsAmb vref fullScale 0 = .num (Num64.zero (Config.numericsAmb vref fullScale 0).zeroNeg) :=
  if_pos rfl

/-- `numerics.amb` of any other sample is what R18 gives for the order of R122. -/
theorem Machine.numericsAmb_of_ne_zero (vref : Rat) (fullScale : Nat) {x : Nat} (hx : x ≠ 0) :
    numericsAmb vref fullScale x =
      realize (Config.numericsAmb vref fullScale x) (ambSteps vref fullScale x) (ambExact vref fullScale x) :=
  if_neg hx

end Sys2Proof
end

