-- ==== Sys2Proof/Laws/PerInstr.lean ====
section
/-! SUPPORT. Statements about every command as syntax, one lemma per constructor. -/

namespace Sys2Proof.Laws.CommandLength

/-- A well-formed command's bytes are as many as the format of its opcode says, the opcode first
(30_encoding.md R62, R78). -/
def Statement (i : Instr) : Prop :=
  WellFormed i = true → (encode i).length = (formatOf (opcodeOf i)).length ∧ (encode i).head? = some (opcodeOf i)

theorem lcdInit : Statement .lcdInit := fun _ => ⟨rfl, rfl⟩
theorem lcdCmd (b : Byte) : Statement (.lcdCmd b) := fun _ => ⟨rfl, rfl⟩
theorem lcdData (b : Byte) : Statement (.lcdData b) := fun _ => ⟨rfl, rfl⟩
theorem lcdClear : Statement .lcdClear := fun _ => ⟨rfl, rfl⟩
theorem lcdHome : Statement .lcdHome := fun _ => ⟨rfl, rfl⟩
theorem lcdSetCursor (col row : Byte) : Statement (.lcdSetCursor col row) := fun _ => ⟨rfl, rfl⟩
theorem lcdDisplayOn : Statement .lcdDisplayOn := fun _ => ⟨rfl, rfl⟩
theorem lcdDisplayOff : Statement .lcdDisplayOff := fun _ => ⟨rfl, rfl⟩
theorem lcdCursorOn : Statement .lcdCursorOn := fun _ => ⟨rfl, rfl⟩
theorem lcdCursorOff : Statement .lcdCursorOff := fun _ => ⟨rfl, rfl⟩
theorem lcdBlinkOn : Statement .lcdBlinkOn := fun _ => ⟨rfl, rfl⟩
theorem lcdBlinkOff : Statement .lcdBlinkOff := fun _ => ⟨rfl, rfl⟩
theorem lcdBacklightOn : Statement .lcdBacklightOn := fun _ => ⟨rfl, rfl⟩
theorem lcdBacklightOff : Statement .lcdBacklightOff := fun _ => ⟨rfl, rfl⟩
theorem tcRead : Statement .tcRead := fun _ => ⟨rfl, rfl⟩
theorem ambRead : Statement .ambRead := fun _ => ⟨rfl, rfl⟩
theorem filtPushTc (v : F64) : Statement (.filtPushTc v) := fun _ => ⟨rfl, rfl⟩
theorem filtPushAmb (v : F64) : Statement (.filtPushAmb v) := fun _ => ⟨rfl, rfl⟩
theorem compensate (tc amb : F64) : Statement (.compensate tc amb) := fun _ => ⟨rfl, rfl⟩
theorem reserved (opc : Byte) : Statement (.reserved opc) := by
  intro h
  refine ⟨?_, rfl⟩
  have hn : opc ∉ definedOpcodes := by simpa [WellFormed] using h
  have hz : formatOf opc = .z := by
    unfold formatOf
    simp only [definedOpcodes, List.mem_cons, not_or] at hn
    obtain ⟨-, h11, h12, -, -, h15, -, -, -, -, -, -, -, -, -, -, h40, h41, h50, -⟩ := hn
    rw [if_neg (not_or.2 ⟨h11, h12⟩), if_neg h15, if_neg (not_or.2 ⟨h40, h41⟩), if_neg h50]
  simp [encode, operandBytes, opcodeOf, hz, Format.length]

end Sys2Proof.Laws.CommandLength
end

