-- ==== Sys2Proof/Laws/Sensors.lean ====
section
/-! SUPPORT. What the clocks of a thermocouple read, the filter and the commands without bus writes can do. -/

namespace Sys2Proof.Machine

/-- The raw word after more bits are shifted in. -/
def shiftIn (w : BitVec 16) (bits : List Bool) : BitVec 16 := bits.foldl (fun w b => orSample (shiftRaw w) b) w

/-- `tcSamples` gives as many bits as it is asked for. -/
@[simp] theorem length_tcSamples (n : Nat) (e : Env) : (tcSamples n e).length = n := by
  induction n generalizing e with
  | zero => rfl
  | succ n ih => simp [tcSamples, ih]

/-- One step of the word of `wordOfBits` is one clock's shift and sample. -/
theorem shiftIn_zero (bits : List Bool) : shiftIn 0 bits = wordOfBits bits := by
  have step : ∀ (w : BitVec 16) (b : Bool), orSample (shiftRaw w) b = (w <<< 1) ||| (if b then 1 else 0) := by
    intro w b
    cases b <;> simp [orSample, shiftRaw]
  simp only [shiftIn, wordOfBits, step]

/-- One clock of a read. -/
theorem tcClock_go (s : State) :
    tcClock s = .go { s with
      tcSck := false, tcSr := shiftIn s.tcSr [s.env.tcBit],
      trace := s.trace ++ clockEvents s.cfg s.env.tcBit, env := s.env.afterTc } := by
  simp only [tcClock, inOrder_cons, inOrder_nil, setPin, update_go, wait_go, sampleTc, Progress.andThen_go]
  simp [State.emit, State.setLevel, State.setTcSr, State.setEnv, shiftIn, clockEvents]

/-- The clocks of a read, all together: the bits shifted in, each clock's events, the samples drawn, the clock
left low. -/
theorem tcClocks_go (n : Nat) (s : State) :
    tcClocks (n + 1) s = .go { s with
      tcSck := false, tcSr := shiftIn s.tcSr (tcSamples (n + 1) s.env),
      trace := s.trace ++ (tcSamples (n + 1) s.env).flatMap (clockEvents s.cfg),
      env := afterSamples (n + 1) s.env } := by
  induction n generalizing s with
  | zero => simp [tcClocks, tcClock_go, tcSamples, afterSamples]
  | succ n ih =>
    rw [tcClocks, tcClock_go, Progress.andThen_go, ih]
    simp [tcSamples, shiftIn, afterSamples]

/-- A read: the pins end idle, the raw word is that of the sampled bits, the response is its last event. -/
theorem execTcRead_next (s : State) :
    execTcRead s = .next { s with
      seq := .ready, tcCs := true, tcSck := false, tcSr := wordOfBits (readBits s),
      trace := s.trace ++ tcEvents s.cfg (readBits s) ++
        [.respond (tcStatus (wordOfBits (readBits s))) (tcPayload (wordOfBits (readBits s)))],
      env := afterSamples 16 s.env } := by
  simp only [execTcRead, command, runLines_cons, setPin, update_go, wait_go, Progress.andThen_go, tcBits]
  rw [tcClocks_go 15]
  simp only [Progress.andThen_go]
  rw [← shiftIn_zero]
  simp [tcResult, State.emit, State.setLevel, State.setTcSr, State.setSeq, readBits, tcEvents, tcCsSettle, milli]

/-- An ambient read draws one sample and responds. -/
theorem execAmbRead_next (s : State) :
    execAmbRead s = .next { s with
      seq := .ready,
      trace := s.trace ++ [.adcSample (s.env.adcDraw s.cfg.fullScale),
        .respond statusOk (payloadOf (numericsAmb s.cfg.vref s.cfg.fullScale (s.env.adcDraw s.cfg.fullScale)))],
      env := s.env.afterAdc } := by
  simp [execAmbRead, command, sampleAdc, State.emit, State.setEnv, State.setSeq]

/-- A push: the window and a response, or BAD_OPERAND. -/
theorem execFiltPushTc_next (v : F64) (s : State) :
    (numsFinite [v] = true ∧ execFiltPushTc v s = .next { s with
      seq := .ready, winTc := pushWindow s.cfg.nTc s.winTc (numOperand v),
      trace := s.trace ++
        [.respond statusOk (payloadOf (numericsMean (pushWindow s.cfg.nTc s.winTc (numOperand v))))] }) ∨
    (numsFinite [v] = false ∧ execFiltPushTc v s = .next { s with
      seq := .ready, trace := s.trace ++ [.respond statusBadOperand []] }) := by
  cases h : numsFinite [v] <;>
    simp [execFiltPushTc, command, checkNums, h, pushTc, State.emit, State.setSeq, State.setWinTc]

/-- A push: the window and a response, or BAD_OPERAND. -/
theorem execFiltPushAmb_next (v : F64) (s : State) :
    (numsFinite [v] = true ∧ execFiltPushAmb v s = .next { s with
      seq := .ready, winAmb := pushWindow s.cfg.nAmb s.winAmb (numOperand v),
      trace := s.trace ++
        [.respond statusOk (payloadOf (numericsMean (pushWindow s.cfg.nAmb s.winAmb (numOperand v))))] }) ∨
    (numsFinite [v] = false ∧ execFiltPushAmb v s = .next { s with
      seq := .ready, trace := s.trace ++ [.respond statusBadOperand []] }) := by
  cases h : numsFinite [v] <;>
    simp [execFiltPushAmb, command, checkNums, h, pushAmb, State.emit, State.setSeq, State.setWinAmb]

/-- `COMPENSATE` only responds. -/
theorem execCompensate_next (tc amb : F64) (s : State) :
    (numsFinite [tc, amb] = true ∧ execCompensate tc amb s = .next { s with
      seq := .ready,
      trace := s.trace ++ [.respond statusOk (payloadOf (numericsComp (numOperand tc) (numOperand amb)))] }) ∨
    (numsFinite [tc, amb] = false ∧ execCompensate tc amb s = .next { s with
      seq := .ready, trace := s.trace ++ [.respond statusBadOperand []] }) := by
  cases h : numsFinite [tc, amb] <;> simp [execCompensate, command, checkNums, h, State.emit, State.setSeq]

/-- A reserved opcode only responds. -/
theorem execReserved_next (opc : Byte) (s : State) :
    execReserved opc s = .next { s with
      seq := .ready, trace := s.trace ++ [.respond statusIllegalOpcode []] } := rfl

/-- The window after a push is never empty. -/
theorem pushWindow_ne_nil (cap : Nat) (w : List Num64) (v : Num64) : pushWindow cap w v ≠ [] := by
  simp [pushWindow]

/-- A push keeps a window within its capacity. -/
theorem length_pushWindow_le {cap : Nat} {w : List Num64} (v : Num64) (hc : 1 ≤ cap) (h : w.length ≤ cap) :
    (pushWindow cap w v).length ≤ cap := by
  unfold pushWindow
  split <;> simp <;> omega

/-- What a push leaves in a window was there or is the pushed value with the sign of zero dropped. -/
theorem mem_pushWindow {cap : Nat} {w : List Num64} {v x : Num64} (h : x ∈ pushWindow cap w v) :
    x ∈ w ∨ x = v.canon := by
  unfold pushWindow at h
  rw [List.mem_append, List.mem_singleton] at h
  rcases h with h | h
  · split at h
    · exact .inl (List.mem_of_mem_drop h)
    · exact .inl h
  · exact .inr h

/-- The sign of zero is dropped once. -/
@[simp] theorem canon_canon (v : Num64) : v.canon.canon = v.canon := by
  unfold Num64.canon
  by_cases h : v.isZero = true
  · simp only [h, if_true]
    rfl
  · simp only [h, if_false, Bool.false_eq_true]

/-- The operand check: BAD_OPERAND ends the command, or the Engine goes on unchanged. -/
theorem checkNums_cases (vs : List F64) (s : State) :
    (numsFinite vs = true ∧ checkNums vs s = .go s) ∨
    (numsFinite vs = false ∧ checkNums vs s = respond statusBadOperand [] s) := by
  unfold checkNums
  cases numsFinite vs <;> simp

end Sys2Proof.Machine
end

