-- ==== Sys2Proof/Laws/Step.lean ====
section
/-! SUPPORT. What a step can do, said once. -/

namespace Sys2Proof.Machine

/-- A step that answers a next state: a reset request was taken, the Engine waits for bytes, or it ran the command
it decoded from the port. -/
theorem step_cases {s t : State} (h : step s = .next t) :
    s.refused = false ∧
    ((s.env.resetReq = true ∧ t = takeReset s) ∨
     (s.env.resetReq = false ∧ s.ub = false ∧ s.seq = .ready ∧
       ((∃ e, decode s.env.port = .error e ∧ t = s) ∨
        ∃ i rest, decode s.env.port = .ok (i, rest) ∧ exec i (s.setEnv { s.env with port := rest }) = .next t))) := by
  unfold step at h
  cases hrf : s.refused with
  | true => simp [hrf] at h
  | false =>
    cases hrq : s.env.resetReq with
    | true =>
      simp [hrf, hrq] at h
      exact ⟨rfl, .inl ⟨rfl, h.symm⟩⟩
    | false =>
      cases hub : s.ub with
      | true => simp [hrf, hrq, hub] at h
      | false =>
        cases hs : s.seq with
        | exec op k => simp [hrf, hrq, hub, hs] at h
        | ready =>
          refine ⟨rfl, .inr ⟨rfl, rfl, rfl, ?_⟩⟩
          rw [if_neg (by simp [hrf]), if_neg (by simp [hrq]), if_neg (by simp [hub]), hs] at h
          simp only [fetch] at h
          cases hd : decode s.env.port with
          | error e =>
            rw [hd] at h
            exact .inl ⟨e, rfl, by cases h; rfl⟩
          | ok p =>
            rw [hd] at h
            obtain ⟨i, rest⟩ := p
            exact .inr ⟨i, rest, rfl, h⟩

/-- A reset request between commands is the reset event; inside one it is a refusal. -/
theorem takeReset_cases (s : State) :
    (s.seq = .ready ∧ s.ub = false ∧ takeReset s = resetEvent s) ∨
    (¬ (s.seq = .ready ∧ s.ub = false) ∧
      takeReset s = (s.setEnv { s.env with resetReq := false }).refuse) := by
  unfold takeReset
  by_cases h : s.seq = .ready ∧ s.ub = false
  · exact .inl ⟨h.1, h.2, if_pos h⟩
  · exact .inr ⟨h, if_neg h⟩

end Sys2Proof.Machine
end

