-- ==== Sys2Proof/Laws/Trace.lean ====
section
/-! SUPPORT. How the readings of a trace and the two interface monitors go over appended events. -/

namespace Sys2Proof.Machine

theorem responses_append (a b : List Event) : responses (a ++ b) = responses a ++ responses b := by
  induction a with
  | nil => rfl
  | cons e a ih => cases e <;> simp [responses, ih]

theorem waitSum_append (a b : List Event) : waitSum (a ++ b) = waitSum a + waitSum b := by
  induction a with
  | nil => simp [waitSum]
  | cons e a ih => cases e <;> simp [waitSum, ih, Nat.add_assoc]

@[simp] theorem waitSum_nibble (c : Config) (a : BitVec 7) (bl : Bool) (n : BitVec 4) (rs : Bool) :
    waitSum (nibbleEvents c a bl n rs) = 51000 := by simp [nibbleEvents, waitSum]

@[simp] theorem waitSum_byte (c : Config) (a : BitVec 7) (bl : Bool) (v : Byte) (rs : Bool) :
    waitSum (byteEvents c a bl v rs) = 102000 := by simp [byteEvents, waitSum_append]

theorem lcdMonitor_append (c : Config) (p : LcdPhase) (xs ys : List Event) :
    lcdMonitor c p (xs ++ ys) = (lcdMonitor c p xs).bind fun q => lcdMonitor c q ys := by
  induction xs generalizing p with
  | nil => rfl
  | cons e xs ih =>
    simp only [List.cons_append, lcdMonitor]
    cases lcdNext c p e <;> simp [ih]

theorem tcMonitor_append (p : TcPhase) (xs ys : List Event) :
    tcMonitor p (xs ++ ys) = (tcMonitor p xs).bind fun q => tcMonitor q ys := by
  induction xs generalizing p with
  | nil => rfl
  | cons e xs ih =>
    simp only [List.cons_append, tcMonitor]
    cases tcNext p e <;> simp [ih]

/-- For every choice of three distinct single bits as masks: what the monitor asks of a control byte. -/
theorem ctrl_of_masks : ∀ rm ∈ ([1, 2, 4, 8] : List Byte), ∀ em ∈ ([1, 2, 4, 8] : List Byte),
    ∀ bm ∈ ([1, 2, 4, 8] : List Byte), rm ≠ em → rm ≠ bm → em ≠ bm → ∀ (rs bl : Bool) (n : BitVec 4),
    let b := fun en : Bool => (n.setWidth 8 <<< 4) ||| (if rs then rm else 0) ||| (if en then em else 0) |||
      (if bl then bm else 0)
    (b true &&& (0x0F &&& ~~~(rm ||| em ||| bm)) == 0) = true ∧ b true &&& em ≠ 0 ∧
      b false = b true &&& ~~~em ∧ bm &&& em = 0 ∧ (bm &&& (0x0F &&& ~~~(rm ||| em ||| bm)) == 0) = true := by
  decide +kernel

/-- What the monitor asks of a control byte, for a configuration with legal masks. -/
theorem ctrl_monitored (c : Config) (h : masksValid c = true) (rs bl : Bool) (n : BitVec 4) :
    writesOnly c (ctrl c n rs true bl) = true ∧ ctrl c n rs true bl &&& c.enMask ≠ 0 ∧
      ctrl c n rs false bl = ctrl c n rs true bl &&& ~~~c.enMask ∧ c.blMask &&& c.enMask = 0 ∧
      writesOnly c c.blMask = true := by
  simp only [masksValid, isLowBit, Bool.and_eq_true, Bool.or_eq_true, beq_iff_eq, bne_iff_ne] at h
  obtain ⟨⟨⟨⟨⟨h1, h2⟩, h3⟩, h4⟩, h5⟩, h6⟩ := h
  exact ctrl_of_masks c.rsMask (by simp; tauto) c.enMask (by simp; tauto) c.blMask (by simp; tauto) h4 h5 h6 rs bl n

/-- A nibble transaction keeps the display's rules and closes. -/
theorem lcdMonitor_nibble (c : Config) (h : masksValid c = true) (bl : Bool) (n : BitVec 4) (rs : Bool) :
    lcdMonitor c .idle (nibbleEvents c c.lcdAddr bl n rs) = some .idle := by
  obtain ⟨h1, h2, h3, -, -⟩ := ctrl_monitored c h rs bl n
  have h2' : ¬ (ctrl c n rs true bl &&& c.enMask = 0#8) := h2
  simp [nibbleEvents, lcdMonitor, lcdNext, h1, h2', h3]

/-- A byte transfer keeps the display's rules and closes. -/
theorem lcdMonitor_byte (c : Config) (h : masksValid c = true) (bl : Bool) (v : Byte) (rs : Bool) :
    lcdMonitor c .idle (byteEvents c c.lcdAddr bl v rs) = some .idle := by
  simp [byteEvents, lcdMonitor_append, lcdMonitor_nibble c h]

/-- Bus writes and waits do not touch the thermocouple's interface. -/
theorem tcMonitor_bus (l : List Event) (h : onlyBus l = true) : tcMonitor .idle l = some .idle := by
  induction l with
  | nil => rfl
  | cons e l ih => cases e <;> simp_all [onlyBus, tcMonitor, tcNext]

/-- A trace cut at a write is a prefix of the trace. -/
theorem upToWrite_prefix (l : List Event) (m : Nat) : upToWrite m l <+: l := by
  induction l generalizing m with
  | nil => cases m <;> exact List.prefix_rfl
  | cons e l ih => cases e <;> cases m <;> simp [upToWrite, List.cons_prefix_cons, ih]

/-- A prefix of a trace that keeps the display's rules keeps them. -/
theorem lcdMonitor_prefix {c : Config} {p q : LcdPhase} {l l' : List Event} (hp : l' <+: l)
    (h : lcdMonitor c p l = some q) : ∃ r, lcdMonitor c p l' = some r := by
  obtain ⟨ys, rfl⟩ := hp
  rw [lcdMonitor_append] at h
  cases hx : lcdMonitor c p l' with
  | none => rw [hx] at h; cases h
  | some r => exact ⟨r, rfl⟩

end Sys2Proof.Machine
end

