-- ==== Sys2Proof/Tests/Slice0.lean ====
section
/-! SUPPORT. Tests. The expected values are those of 95_test_vectors.md (named V-...) and of the worked examples of
the rules; the words of the decode tests are written from the opcode map of 30_encoding.md R64. -/

namespace Sys2Proof.Tests.Slice0

open Sys2Proof.Machine

/-! ### Helpers -/

/-- The state a step or a command answers. -/
def after : Host.Outcome State Fault Refusal → State
  | .next s => s
  | .fault _ | .refused _ => State.reset

/-- The state after the Engine has run the one command whose bytes the Host sends. -/
def run1 (bs : List Byte) (s : State) : State := after (step (s.hostSends bs))

/-- The reset state with `ROWS = r`. -/
def rows (r : Nat) : State := State.resetOf { Config.board with rows := r }

/-- The state with these display flags and backlight. -/
def flags (bl : Bool) (dcf : BitVec 3) : State := { State.reset with bl := bl, dcf := dcf }

/-- Sixteen samples that assemble to a word, bit 15 first. -/
def wire (w : BitVec 16) : List Bool := (List.range 16).map fun k => w.getLsbD (15 - k)

/-- The `Num` of a rational that has one. -/
def num (q : Rat) : Num64 := (Num64.ofQ? q).getD (Num64.zero false)

/-! ### Well-formedness -/

theorem test_wf_refuses_defined_opcodes : WellFormed (.reserved 0x10) = false ∧
    definedOpcodes.all (fun opc => !WellFormed (.reserved opc)) = true := by decide
theorem test_wf_admits_reserved : WellFormed (.reserved 0x1E) = true ∧ WellFormed (.reserved 0xFF) = true := by decide

/-! ### Decoding: every constructor, from its word -/

theorem test_decode_lcdInit : decode [0b00010000#8] = .ok (.lcdInit, []) := rfl
theorem test_decode_lcdCmd : decode [0b00010001#8, 0b00101000#8] = .ok (.lcdCmd 0x28, []) := rfl
theorem test_decode_lcdData : decode [0b00010010#8, 0b01000001#8] = .ok (.lcdData 0x41, []) := rfl
theorem test_decode_lcdClear : decode [0b00010011#8] = .ok (.lcdClear, []) := rfl
theorem test_decode_lcdHome : decode [0b00010100#8] = .ok (.lcdHome, []) := rfl
theorem test_decode_lcdSetCursor :
    decode [0b00010101#8, 0b00000011#8, 0b00000001#8] = .ok (.lcdSetCursor 3 1, []) := rfl
theorem test_decode_lcdDisplayOn : decode [0b00010110#8] = .ok (.lcdDisplayOn, []) := rfl
theorem test_decode_lcdDisplayOff : decode [0b00010111#8] = .ok (.lcdDisplayOff, []) := rfl
theorem test_decode_lcdCursorOn : decode [0b00011000#8] = .ok (.lcdCursorOn, []) := rfl
theorem test_decode_lcdCursorOff : decode [0b00011001#8] = .ok (.lcdCursorOff, []) := rfl
theorem test_decode_lcdBlinkOn : decode [0b00011010#8] = .ok (.lcdBlinkOn, []) := rfl
theorem test_decode_lcdBlinkOff : decode [0b00011011#8] = .ok (.lcdBlinkOff, []) := rfl
theorem test_decode_lcdBacklightOn : decode [0b00011100#8] = .ok (.lcdBacklightOn, []) := rfl
theorem test_decode_lcdBacklightOff : decode [0b00011101#8] = .ok (.lcdBacklightOff, []) := rfl
theorem test_decode_tcRead : decode [0b00100000#8] = .ok (.tcRead, []) := rfl
theorem test_decode_ambRead : decode [0b00110000#8] = .ok (.ambRead, []) := rfl
/-- 100.0 is `00 00 00 00 00 00 59 40` (95_test_vectors.md). -/
theorem test_decode_filtPushTc :
    decode [0b01000000#8, 0, 0, 0, 0, 0, 0, 0x59, 0x40] = .ok (.filtPushTc 0x4059000000000000, []) := rfl
/-- 23.4375 is `00 00 00 00 00 70 37 40`. -/
theorem test_decode_filtPushAmb :
    decode [0b01000001#8, 0, 0, 0, 0, 0, 0x70, 0x37, 0x40] = .ok (.filtPushAmb 0x4037700000000000, []) := rfl
/-- V-COMP-1. -/
theorem test_decode_compensate :
    decode [0b01010000#8, 0, 0, 0, 0, 0, 0, 0x59, 0x40, 0, 0, 0, 0, 0, 0, 0x3E, 0x40] =
      .ok (.compensate 0x4059000000000000 0x403E000000000000, []) := rfl
/-- The stream `FF 12 41` of 95_test_vectors.md: a reserved opcode is one byte long. -/
theorem test_decode_reserved : decode [0xFF, 0x12, 0x41] = .ok (.reserved 0xFF, [0x12, 0x41]) := rfl
theorem test_decode_short : decode [0x15, 0x03] = .error (.truncated 0x15) ∧ decode [] = .error .empty := ⟨rfl, rfl⟩
/-- The table's numbering: the second byte is bits 15..8; bits above `nbits` are 0. -/
theorem test_decode_table_word : decodeTableWord 24 0x010315 = some (.lcdSetCursor 3 1) ∧
    decodeTableWord 8 0x41 = some (.filtPushAmb 0) ∧ decodeTableWord 8 0x1E = some (.reserved 0x1E) := by decide
theorem test_withFetchWord : (after (step (State.reset.withFetchWord 16 0x2811))).trace.length = 9 ∧
    (after (step (State.reset.withFetchWord 16 0x2811))).env.port = [] := by decide

/-! ### The display -/

/-- V-LCD-1. -/
theorem test_lcdCmd : busBytes (run1 [0x11, 0x28] State.reset).trace = [0x2C, 0x28, 0x8C, 0x88] := by decide
/-- V-LCD-2: no 2 ms wait after a raw clear. -/
theorem test_lcdCmd_clear_does_not_wait : waitSum (run1 [0x11, 0x01] State.reset).trace = 102000 := by decide
/-- V-LCD-6 and V-LCD-7. -/
theorem test_lcdData : busBytes (run1 [0x12, 0x41] State.reset).trace = [0x4D, 0x49, 0x1D, 0x19] ∧
    busBytes (run1 [0x12, 0x41] (flags false 0b100)).trace = [0x45, 0x41, 0x15, 0x11] := by decide
/-- V-INIT-1. -/
theorem test_lcdInit : busBytes (run1 [0x10] State.reset).trace =
    [0x3C, 0x38, 0x3C, 0x38, 0x3C, 0x38, 0x2C, 0x28, 0x2C, 0x28, 0x8C, 0x88, 0x0C, 0x08, 0xCC, 0xC8,
     0x0C, 0x08, 0x1C, 0x18, 0x0C, 0x08, 0x6C, 0x68] := by decide
/-- V-INIT-2 and V-INIT-3: the backlight bit of every write, and the flags afterwards. -/
theorem test_lcdInit_flags : (run1 [0x10] (flags false 0b111)).dcf = 0b100 ∧
    busBytes (run1 [0x10] (flags false 0b111)).trace =
      [0x34, 0x30, 0x34, 0x30, 0x34, 0x30, 0x24, 0x20, 0x24, 0x20, 0x84, 0x80, 0x04, 0x00, 0xC4, 0xC0,
       0x04, 0x00, 0x14, 0x10, 0x04, 0x00, 0x64, 0x60] := by decide
/-- V-CLR-1. -/
theorem test_lcdClear : busBytes (run1 [0x13] State.reset).trace = [0x0C, 0x08, 0x1C, 0x18] ∧
    waitSum (run1 [0x13] State.reset).trace = 2102000 := by decide
/-- V-HOME-1. -/
theorem test_lcdHome : busBytes (run1 [0x14] State.reset).trace = [0x0C, 0x08, 0x2C, 0x28] ∧
    waitSum (run1 [0x14] State.reset).trace = 2102000 := by decide
/-- V-CUR-2, V-CUR-4, V-CUR-8 and V-CUR-10. -/
theorem test_lcdSetCursor : busBytes (run1 [0x15, 0x03, 0x01] (rows 4)).trace = [0xCC, 0xC8, 0x3C, 0x38] ∧
    busBytes (run1 [0x15, 0x00, 0x03] (rows 4)).trace = [0xDC, 0xD8, 0x4C, 0x48] ∧
    busBytes (run1 [0x15, 0x70, 0x01] (rows 2)).trace = [0xBC, 0xB8, 0x0C, 0x08] ∧
    busBytes (run1 [0x15, 0xFF, 0x03] (rows 4)).trace = [0xDC, 0xD8, 0x3C, 0x38] := by decide
/-- V-CUR-11 and V-CUR-12. -/
theorem test_lcdSetCursor_undefined :
    (run1 [0x15, 0x05, 0x02] (rows 2)).ubInfo = some (.setCursorRow 2) ∧
    (run1 [0x15, 0x05, 0x02] (rows 2)).trace = [] ∧ (run1 [0x15, 0x00, 0x01] (rows 1)).ub = true := by decide
/-- V-DCF-1 and V-DCF-10. -/
theorem test_lcdDisplayOn : busBytes (run1 [0x16] (flags true 0b000)).trace = [0x0C, 0x08, 0xCC, 0xC8] ∧
    busBytes (run1 [0x16] (flags false 0b011)).trace = [0x04, 0x00, 0xF4, 0xF0] := by decide
/-- V-DCF-3 and V-DCF-11. -/
theorem test_lcdDisplayOff : busBytes (run1 [0x17] (flags true 0b111)).trace = [0x0C, 0x08, 0xBC, 0xB8] ∧
    (run1 [0x17] (flags false 0b000)).dcf = 0b000 := by decide
/-- V-DCF-4. -/
theorem test_lcdCursorOn : busBytes (run1 [0x18] (flags true 0b100)).trace = [0x0C, 0x08, 0xEC, 0xE8] := by decide
/-- V-DCF-5. -/
theorem test_lcdCursorOff : (run1 [0x19] (flags true 0b110)).dcf = 0b100 ∧
    busBytes (run1 [0x19] (flags true 0b110)).trace = [0x0C, 0x08, 0xCC, 0xC8] := by decide
/-- V-DCF-6 and V-DCF-7. -/
theorem test_lcdBlinkOn : (run1 [0x1A] (flags true 0b110)).dcf = 0b111 ∧
    busBytes (run1 [0x1A] (flags true 0b100)).trace = [0x0C, 0x08, 0xDC, 0xD8] := by decide
/-- V-DCF-8 and V-DCF-9. -/
theorem test_lcdBlinkOff : busBytes (run1 [0x1B] (flags true 0b111)).trace = [0x0C, 0x08, 0xEC, 0xE8] ∧
    busBytes (run1 [0x1B] (flags true 0b000)).trace = [0x0C, 0x08, 0x8C, 0x88] := by decide
/-- V-BL-2. -/
theorem test_lcdBacklightOn : (run1 [0x1C] (flags false 0b100)).bl = true ∧
    (run1 [0x1C] (flags false 0b100)).trace = [.busWrite 0 0x08, .respond 0x00 []] := by decide
/-- V-BL-1. -/
theorem test_lcdBacklightOff : (run1 [0x1D] State.reset).bl = false ∧
    (run1 [0x1D] State.reset).trace = [.busWrite 0 0x00, .respond 0x00 []] := by decide
/-- 20_memory.md R47: the third write never returns; no response. -/
theorem test_hung_write :
    busBytes (run1 [0x11, 0x28] (State.reset.busChooses (some 2))).trace = [0x2C, 0x28, 0x8C] ∧
    responses (run1 [0x11, 0x28] (State.reset.busChooses (some 2))).trace = [] := by decide
theorem test_hung_engine_is_stuck :
    step (run1 [0x11, 0x28] (State.reset.busChooses (some 2))) = .fault .busHung := rfl

/-! ### Sensors, filter, compensation, reserved opcodes -/

/-- V-TC-5: `00, 12.0`. -/
theorem test_tcRead : responses (run1 [0x20] (State.reset.chipDrives (wire 0x0180))).trace =
    [(0x00, [0, 0, 0, 0, 0, 0, 0x28, 0x40])] := by decide +kernel
/-- V-TC-11, V-TC-12. -/
theorem test_tcRead_fault_and_largest :
    responses (run1 [0x20] (State.reset.chipDrives (wire 0x1904))).trace = [(0x01, [])] ∧
    tcTemperature 0xFFFB = num (8191 / 4) := by decide +kernel
/-- V-AMB-3: `00, 23.4375`. -/
theorem test_ambRead : responses (run1 [0x30] (State.reset.adcDelivers [240])).trace =
    [(0x00, [0, 0, 0, 0, 0, 0x70, 0x37, 0x40])] := by decide +kernel
/-- V-AMB-7: `00, 100.0`. -/
theorem test_ambRead_full_scale : responses (run1 [0x30] (State.reset.adcDelivers [1024])).trace =
    [(0x00, [0, 0, 0, 0, 0, 0, 0x59, 0x40])] := by decide +kernel
/-- V-FILT-1, its seventh push: `00, 5.0`, the window the last five. -/
theorem test_filtPushTc :
    (run1 [0x40, 0, 0, 0, 0, 0, 0, 0x1C, 0x40] { State.reset with winTc := [2, 3, 4, 5, 6].map num }).winTc =
      [3, 4, 5, 6, 7].map num ∧
    responses (run1 [0x40, 0, 0, 0, 0, 0, 0, 0x1C, 0x40]
      { State.reset with winTc := [2, 3, 4, 5, 6].map num }).trace =
      [(0x00, [0, 0, 0, 0, 0, 0, 0x14, 0x40])] := by decide +kernel
/-- V-FILT-3. -/
theorem test_filtPushTc_nan : (run1 [0x40, 0, 0, 0, 0, 0, 0, 0xF8, 0x7F] State.reset).trace =
    [.respond 0x81 []] := by decide
/-- V-FILT-5, its second ambient push: `24.5`. -/
theorem test_filtPushAmb : responses (run1 [0x41, 0, 0, 0, 0, 0, 0, 0x39, 0x40]
    { State.reset with winAmb := [num 24] }).trace = [(0x00, [0, 0, 0, 0, 0, 0x80, 0x38, 0x40])] := by decide +kernel
/-- V-FILT-4. -/
theorem test_filtPushAmb_minus_zero : (run1 [0x41, 0, 0, 0, 0, 0, 0, 0, 0x80] State.reset).winAmb =
    [Num64.zero false] := by decide
/-- V-COMP-1: `00, 105.0`. -/
theorem test_compensate :
    responses (run1 [0x50, 0, 0, 0, 0, 0, 0, 0x59, 0x40, 0, 0, 0, 0, 0, 0, 0x3E, 0x40] State.reset).trace =
      [(0x00, [0, 0, 0, 0, 0, 0x40, 0x5A, 0x40])] := by decide +kernel
/-- V-COMP-7. -/
theorem test_compensate_inf :
    (run1 [0x50, 0, 0, 0, 0, 0, 0, 0xF0, 0x3F, 0, 0, 0, 0, 0, 0, 0xF0, 0x7F] State.reset).trace =
      [.respond 0x81 []] := by decide
/-- V-RES-3. -/
theorem test_reserved : (run1 [0x1E] State.reset).trace = [.respond 0x80 []] := by decide

/-! ### Reset, configuration, assembler -/

/-- 70_reset_and_hazards.md R179. -/
theorem test_reset_inside_a_command :
    (after (step { State.reset with seq := .exec .lcdInit 3 }.hostAsksReset)).refused = true := by decide
/-- 60_exceptions.md R162. -/
theorem test_bad_configuration : (rows 5).refused = true ∧ (rows 4).refused = false := by decide +kernel
/-- 30_encoding.md R79. -/
theorem test_assemble : assemble "LCD_SETCURSOR 3, 1".toList = some [.lcdSetCursor 3 1] ∧
    assemble "LCD_CMD 0x28".toList = some [.lcdCmd 0x28] ∧ assemble "noBlink".toList = some [.lcdBlinkOff] ∧
    assemble "COMPENSATE 100.0, 30.0".toList = some [.compensate 0x4059000000000000 0x403E000000000000] := by
  decide +kernel
/-- 30_encoding.md R79: a literal that is not exactly representable, and a byte that does not fit. -/
theorem test_assemble_rejects : assemble "FILT_PUSH_AMB 0.1".toList = none ∧
    assemble "LCD_CMD 256".toList = none := by decide +kernel
/-- V-PRINT-1 and V-PRINT-2. -/
theorem test_assemble_print : assemble "PRINT \"Hi\"".toList = some [.lcdData 0x48, .lcdData 0x69] ∧
    assemble "PRINT \"\"".toList = some [] := by decide +kernel

/-! ### Witnesses: for each obligation with hypotheses, a concrete case that meets all of them -/

/-- The reset state with these bytes on the port. -/
def port (bs : List Byte) : State := State.reset.hostSends bs

/-- The state of a hung command. -/
def hung : State := run1 [0x11, 0x28] (State.reset.busChooses (some 2))

/-- The state of an undefined command. -/
def undefinedState : State := run1 [0x15, 0x05, 0x02] State.reset

theorem witness_DecodeOfEncodeIsTheCommand : WellFormed (.compensate 0x4059000000000000 0x8000000000000000) = true ∧
    WellFormed (.reserved 0xFF) = true := by decide
theorem witness_EncodeOfDecodeIsTheBytes :
    decode [0x15, 0xFF, 0xFF, 0x13] = .ok (.lcdSetCursor 0xFF 0xFF, [0x13]) := rfl
theorem witness_OpcodeFixesTheLength : (formatOf 0x10).length = ([] : List Byte).length + 1 ∧
    (formatOf 0x12).length = [0x41#8].length + 1 ∧ (formatOf 0x15).length = [3#8, 1#8].length + 1 ∧
    (formatOf 0x41).length = (leBytes 0).length + 1 ∧
    (formatOf 0x50).length = (leBytes 0 ++ leBytes 0).length + 1 ∧ 0x00 ∉ definedOpcodes ∧
    0xFF ∉ definedOpcodes := by decide
theorem witness_StepRunsTheDecodedCommand : (port [0x13]).refused = false ∧ (port [0x13]).env.resetReq = false ∧
    (port [0x13]).ub = false ∧ (port [0x13]).seq = .ready ∧ decode (port [0x13]).env.port = .ok (.lcdClear, []) :=
  ⟨by decide, rfl, rfl, rfl, rfl⟩
theorem witness_StepWaitsForAWholeCommand : State.reset.refused = false ∧ State.reset.env.port = [] ∧
    (port [0x15, 0x03]).env.port = 0x15 :: [0x03] ∧ [0x03#8].length + 1 < (formatOf 0x15).length ∧
    (port (0x50 :: (leBytes 0 ++ (leBytes 0).drop 1))).env.port = 0x50 :: (leBytes 0 ++ (leBytes 0).drop 1) ∧
    (leBytes 0 ++ (leBytes 0).drop 1).length + 1 < (formatOf 0x50).length := by decide
theorem witness_StuckEngineTakesNoStep : undefinedState.refused = false ∧ undefinedState.env.resetReq = false ∧
    undefinedState.ub = true ∧ hung.refused = false ∧ hung.env.resetReq = false ∧ hung.ub = false ∧
    hung.seq = .exec (.lcdCmd 0x28) 0 := by decide
theorem witness_ControlByteFields : masksValid Config.board = true ∧
    masksValid { Config.board with rsMask := 8, enMask := 2, blMask := 1 } = true := by decide
/-- The draws that allow exactly `n` writes. -/
theorem witness_busAllows (n : Nat) : busAllows n (State.reset.busChooses (some n)).env ∧
    busAllows n State.reset.env := ⟨Nat.le_refl n, trivial⟩
theorem witness_ByteTransferIsFourWrites : busAllows 4 (State.reset.busChooses (some 4)).env :=
  (witness_busAllows 4).1
theorem witness_LcdCmdSendsACommandByte : busAllows 4 (State.reset.busChooses (some 4)).env :=
  (witness_busAllows 4).1
theorem witness_LcdDataSendsADataByte : busAllows 4 (flags false 0b111).env := trivial
theorem witness_LcdInitRunsTheSequence : busAllows 24 (State.reset.busChooses (some 24)).env :=
  (witness_busAllows 24).1
theorem witness_LcdClearAndHomeSendAndWait : busAllows 4 (State.reset.busChooses (some 4)).env :=
  (witness_busAllows 4).1
theorem witness_LcdSetCursorSendsTheAddress :
    (busAllows 4 (rows 4).env ∧ (rows 4).lcdRows ≤ 4 ∧ (0x03 : Byte).toNat < (rows 4).lcdRows) ∧
    (busAllows 4 (rows 1).env ∧ (rows 1).lcdRows ≤ 4 ∧ (0x00 : Byte).toNat < (rows 1).lcdRows) ∧
    (rows 4).lcdRows ≤ (0x04 : Byte).toNat ∧ (rows 1).lcdRows ≤ (0x01 : Byte).toNat :=
  ⟨⟨trivial, by decide⟩, ⟨trivial, by decide⟩, by decide⟩
theorem witness_TogglesWriteOneFlagAndResend : Instr.lcdBlinkOff ∈
    ([.lcdDisplayOn, .lcdDisplayOff, .lcdCursorOn, .lcdCursorOff, .lcdBlinkOn, .lcdBlinkOff] : List Instr) ∧
    busAllows 4 (flags false 0b111).env := ⟨by decide, trivial⟩
theorem witness_BacklightCommandsWriteOnce : busAllows 1 (State.reset.busChooses (some 1)).env :=
  (witness_busAllows 1).1
theorem witness_HungWriteEndsTheCommandThere :
    ((State.reset.busChooses (some 23)).env.busHang = some 23 ∧
      23 < writeCount (lcdScript (State.reset.busChooses (some 23)) .lcdInit) ∧
      (State.reset.busChooses (some 23)).lcdRows ≤ 4 ∧
      ¬ undefinedRow (State.reset.busChooses (some 23)) .lcdInit) ∧
    ((State.reset.busChooses (some 0)).env.busHang = some 0 ∧
      0 < writeCount (lcdScript (State.reset.busChooses (some 0)) (.lcdSetCursor 3 1)) ∧
      (State.reset.busChooses (some 0)).lcdRows ≤ 4 ∧
      ¬ undefinedRow (State.reset.busChooses (some 0)) (.lcdSetCursor 3 1)) :=
  ⟨⟨rfl, by decide, by decide, fun h => h⟩, ⟨rfl, by decide, by decide, by simp only [undefinedRow]; decide⟩⟩
theorem witness_SensorFaultWhateverTheOtherBits :
    (readBits (State.reset.chipDrives (wire 0x0004)))[13]? = some true ∧
    (readBits (State.reset.chipDrives (wire 0xFFFF)))[13]? = some true := by decide
theorem witness_AmbReadTakesOneSample : (State.reset.adcDelivers [1024]).env.adcIn = 1024 :: [] ∧
    1024 ≤ (State.reset.adcDelivers [1024]).cfg.fullScale := by decide

/-- `num` finds the value it is asked for, where there is one. -/
theorem num_toQ {q : Rat} (h : (Num64.ofQ? q).isSome = true) : (num q).toQ = q := by
  obtain ⟨n, hn⟩ := Option.isSome_iff_exists.1 h
  have hu : n.toUnits = (q * ((unitsPerOne : Nat) : Rat)).num ∧ (q * ((unitsPerOne : Nat) : Rat)).den = 1 := by
    unfold Num64.ofQ? at hn
    simp only at hn
    split at hn
    · next hd => exact ⟨Num64.toUnits_of_ofUnits? hn, hd⟩
    · cases hn
  rw [num, hn, Option.getD_some, Num64.toQ, hu.1, div_eq_iff unitsPerOne_ne_zero]
  exact (Rat.den_eq_one_iff _).1 hu.2

theorem witness_AmbientIsExactWhenRepresentable : (0 : Rat) < 1 ∧ 1024 ≤ 1024 ∧
    (num (1 / 1024)).toQ = 1 / ((1024 : Nat) : Rat) ∧
    (num 1).toQ = ((1024 : Nat) : Rat) * (num (1 / 1024)).toQ ∧ (num 100).toQ = (num 1).toQ * 100 := by
  rw [num_toQ (q := 1 / 1024) (by decide +kernel), num_toQ (q := 1) (by decide +kernel),
    num_toQ (q := 100) (by decide +kernel)]
  norm_num
/-- At the samples 0 and `FULL_SCALE`. -/
theorem witness_AmbientStaysInItsRange : (0 : Rat) < 1 ∧ 0 < 1024 ∧ 1024 ≤ 1024 ∧ 0 ≤ 1024 ∧
    (num (1 / 1024)).toQ = 1 / ((1024 : Nat) : Rat) ∧
    (num 1).toQ = ((1024 : Nat) : Rat) * (num (1 / 1024)).toQ ∧ (num 100).toQ = (num 1).toQ * 100 ∧
    (num 0).toQ = ((0 : Nat) : Rat) * (num (1 / 1024)).toQ ∧ (num 0).toQ = (num 0).toQ * 100 := by
  rw [num_toQ (q := 1 / 1024) (by decide +kernel), num_toQ (q := 1) (by decide +kernel),
    num_toQ (q := 100) (by decide +kernel), num_toQ (q := 0) (by decide +kernel)]
  norm_num
/-- Past the finite range, where an infinity is allowed. -/
theorem witness_AmbientStaysInItsRange_overflow :
    0 < maxFinite ∧ maxFinite < ((1 : Nat) : Rat) * (maxFinite / ((1 : Nat) : Rat)) * 100 := by
  rw [Nat.cast_one, one_mul, div_one]
  exact ⟨maxFinite_pos, by linarith [maxFinite_pos]⟩
theorem witness_PushAppendsAndEvicts :
    Num64.ofBits? 0x8000000000000000 = some (Num64.zero true) ∧
    Num64.ofBits? 0x0000000000000001 = some ⟨false, 0, 1⟩ ∧
    Num64.ofBits? 0x7FEFFFFFFFFFFFFF = some ⟨false, 2046, 0xFFFFFFFFFFFFF⟩ := by decide
theorem witness_NonFiniteOperandIsBadOperand : notFinite 0x7FF8000000000000 ∧ notFinite 0xFFF0000000000000 := by
  unfold notFinite
  decide
theorem witness_MeanIsExactWhenRepresentable : [num 1, num 2] ≠ [] ∧
    (∀ k, k ≤ [num 1, num 2].length → ∃ a : Num64, a.toQ = (([num 1, num 2].take k).map Num64.toQ).sum) ∧
    (num (3 / 2)).toQ = ([num 1, num 2].map Num64.toQ).sum / (([num 1, num 2].length : Nat) : Rat) := by
  have h1 : (num 1).toQ = 1 := num_toQ (by decide +kernel)
  have h2 : (num 2).toQ = 2 := num_toQ (by decide +kernel)
  have h3 : (num 3).toQ = 3 := num_toQ (by decide +kernel)
  have h4 : (num (3 / 2)).toQ = 3 / 2 := num_toQ (by decide +kernel)
  refine ⟨by simp, ?_, ?_⟩
  · intro k hk
    have : k = 0 ∨ k = 1 ∨ k = 2 := by simp only [List.length_cons, List.length_nil] at hk; omega
    rcases this with rfl | rfl | rfl
    · exact ⟨Num64.zero false, by simp⟩
    · exact ⟨num 1, by simp⟩
    · exact ⟨num 3, by simp [h1, h2, h3]; norm_num⟩
  · simp [h1, h2, h4]; norm_num
/-- Two pushes into a window of capacity 1, one of them of `-0.0`. -/
theorem witness_WindowHoldsTheLastPushes :
    (State.resetOf { Config.board with nTc := 1 }).winTc = [] ∧
    1 ≤ (State.resetOf { Config.board with nTc := 1 }).cfg.nTc ∧ State.reset.winAmb = [] ∧
    1 ≤ State.reset.cfg.nAmb ∧
    [0x8000000000000000#64, 0x0000000000000001#64].map Num64.ofBits? =
      [Num64.zero true, ⟨false, 0, 1⟩].map some := by decide
theorem witness_FirstPushReturnsItsOwnValue : Num64.ofBits? 0x8000000000000000 = some (Num64.zero true) ∧
    State.reset.winTc = [] ∧ 1 ≤ State.reset.cfg.nTc ∧ State.reset.winAmb = [] ∧ 1 ≤ State.reset.cfg.nAmb := by decide
theorem witness_WindowsAreIndependent : State.reset.winTc = (flags false 0b111).winTc ∧
    State.reset.cfg.nTc = (flags false 0b111).cfg.nTc ∧ State.reset.winAmb = (flags false 0b111).winAmb ∧
    State.reset.cfg.nAmb = (flags false 0b111).cfg.nAmb ∧
    (∃ t, exec (.filtPushTc 0) State.reset = .next t) ∧ (∃ t, exec (.filtPushTc 0) (flags false 0b111) = .next t) ∧
    (∃ t, exec (.filtPushAmb 0) State.reset = .next t) ∧
    (∃ t, exec (.filtPushAmb 0) (flags false 0b111) = .next t) :=
  ⟨rfl, rfl, rfl, rfl, ⟨_, rfl⟩, ⟨_, rfl⟩, ⟨_, rfl⟩, ⟨_, rfl⟩⟩
theorem witness_CompensateRespondsWithTheCorrection :
    Num64.ofBits? 0x4059000000000000 = some ⟨false, 1029, 0x9000000000000⟩ ∧
    Num64.ofBits? 0x8000000000000000 = some (Num64.zero true) := by decide
theorem witness_CompensationIsExactWhenRepresentable : (num 5).toQ = (num 30).toQ - 25 ∧
    (num 105).toQ = (num 100).toQ + (num 5).toQ := by
  rw [num_toQ (q := 5) (by decide +kernel), num_toQ (q := 30) (by decide +kernel),
    num_toQ (q := 105) (by decide +kernel), num_toQ (q := 100) (by decide +kernel)]
  norm_num
theorem witness_ReferenceAmbientLeavesTcUnchanged :
    Num64.ofBits? 0x4049000000000000 = some ⟨false, 1028, 0x9000000000000⟩ := by decide
theorem witness_ReservedOpcodesRespondIllegal : 0x1E ∉ definedOpcodes ∧ (port [0x1E, 0x13]).env.port = 0x1E :: [0x13] ∧
    (port [0x1E, 0x13]).refused = false ∧ (port [0x1E, 0x13]).env.resetReq = false ∧
    (port [0x1E, 0x13]).ub = false ∧ (port [0x1E, 0x13]).seq = .ready := by decide
theorem witness_NumericsNeverGivesANaN : notFinite (Value.inf true).toBits ∧
    inRange (1 / ((1024 : Nat) : Rat)) = true ∧ inRange (((1024 : Nat) : Rat) * (1 / ((1024 : Nat) : Rat))) = true ∧
    inRange (((1024 : Nat) : Rat) * (1 / ((1024 : Nat) : Rat)) * 100) = true ∧
    (∀ k, k ≤ [num 1].length → inRange ((([num 1].take k).map Num64.toQ).sum) = true) ∧
    inRange (([num 1].map Num64.toQ).sum / (([num 1].length : Nat) : Rat)) = true ∧
    inRange ((num 30).toQ - 25) = true ∧ inRange ((num 100).toQ + ((num 30).toQ - 25)) = true := by
  unfold notFinite
  decide +kernel
theorem witness_NumEncodingRoundTrip : Num64.ofBits? 0xFFEFFFFFFFFFFFFF =
    some ⟨true, 2046, 0xFFFFFFFFFFFFF⟩ := by decide
theorem witness_ExactValuesAreFound : Num64.ofQ? (-(5 / 2)) = some ⟨true, 1024, 0x4000000000000⟩ := by decide +kernel
theorem witness_ResetValues : configValid Config.board = true := by decide +kernel
theorem witness_ResetIsServedBetweenCommandsOnly : State.reset.hostAsksReset.refused = false ∧
    State.reset.hostAsksReset.env.resetReq = true ∧ State.reset.hostAsksReset.seq = .ready ∧
    State.reset.hostAsksReset.ub = false ∧ hung.hostAsksReset.refused = false ∧
    hung.hostAsksReset.env.resetReq = true ∧ hung.hostAsksReset.seq = .exec (.lcdCmd 0x28) 0 := by decide +kernel
theorem witness_BadConfigurationIsRefused : configValid { Config.board with rows := 5 } = false ∧
    configValid { Config.board with nTc := 0 } = false ∧ configValid { Config.board with nAmb := 0 } = false ∧
    configValid { Config.board with rows := 0 } = false ∧ configValid { Config.board with cols := 0 } = false ∧
    configValid { Config.board with fullScale := 0 } = false ∧
    configValid { Config.board with vref := 0 } = false := by decide +kernel

/-- The invariant at reset, by its definition. -/
theorem invariant_port (bs : List Byte) : Invariant (port bs) where
  regs := ⟨.inl (by show configValid Config.board = true; decide +kernel), rfl, rfl, rfl, Nat.zero_le _, Nat.zero_le _,
    fun _ h => (List.not_mem_nil h).elim, fun _ h => (List.not_mem_nil h).elim, rfl, rfl, rfl, fun h => nomatch h⟩
  trace := ⟨⟨.idle, rfl, fun _ => rfl⟩, rfl, fun h => absurd rfl h⟩

theorem witness_StepKeepsTheRegisterInvariant : RegsOk (port [0x10]) ∧ ∃ t, step (port [0x10]) = .next t :=
  ⟨(invariant_port _).regs, ⟨_, rfl⟩⟩
theorem witness_StepKeepsTheProtocols : Invariant (port [0x20]) ∧ ∃ t, step (port [0x20]) = .next t :=
  ⟨invariant_port _, ⟨_, rfl⟩⟩
theorem witness_EachFieldHasItsWriters : ∃ t, exec .lcdClear (flags false 0b111) = .next t := ⟨_, rfl⟩
theorem witness_TraceIsOnlyAppendedTo : (∃ t, exec .tcRead State.reset = .next t) ∧
    (port [0x30]).env.resetReq = false ∧ ∃ t, step (port [0x30]) = .next t := ⟨⟨_, rfl⟩, rfl, ⟨_, rfl⟩⟩
theorem witness_ExactlyOneResponse : ∃ t, exec (.lcdSetCursor 5 2) State.reset = .next t := ⟨_, rfl⟩
theorem witness_StickyFlagsStay : (∃ t, exec .lcdHome undefinedState = .next t) ∧ undefinedState.ub = true ∧
    (∃ t, step undefinedState.hostAsksReset = .next t) ∧ undefinedState.hostAsksReset.ub = true ∧
    undefinedState.ubInfo = some (.setCursorRow 2) ∧ State.reset.refuse.refused = true :=
  ⟨⟨_, rfl⟩, by decide, ⟨_, rfl⟩, by decide, by decide, rfl⟩
theorem witness_WindowsAreNeverEmptied :
    { port [0x30] with winTc := [num 1], winAmb := [num 2] }.env.resetReq = false ∧
    (∃ t, step { port [0x30] with winTc := [num 1], winAmb := [num 2] } = .next t) := ⟨rfl, ⟨_, rfl⟩⟩
/-- `LCD_BACKLIGHT_ON`, its events and times for them. -/
theorem witness_MinimumDurations : (∃ t, exec .lcdBacklightOn State.reset = .next t ∧ t.seq = .ready) ∧
    RespectsWaits [.busWrite 0 0x08, .respond 0x00 []] (fun n => 7 * n) := by
  refine ⟨⟨_, rfl, rfl⟩, ?_⟩
  intro i j hij hi hj
  have hj2 : j < 2 := by
    by_contra hc
    rw [List.getElem?_eq_none (by simp only [List.length_cons, List.length_nil]; omega)] at hj
    cases hj
  obtain ⟨rfl, rfl⟩ : i = 0 ∧ j = 1 := by omega
  decide
theorem witness_PrintIsOneDataByteEach : (∀ c ∈ ['H', 'ÿ'], c.toNat ≤ 0xFF) ∧
    ∃ c ∈ ['H', 'Ā'], 0xFF < c.toNat := by
  refine ⟨?_, 'Ā', by simp, ?_⟩
  · intro c hc
    simp only [List.mem_cons, List.not_mem_nil, or_false] at hc
    rcases hc with rfl | rfl
    · show 72 ≤ 0xFF; omega
    · show 255 ≤ 0xFF; omega
  · show 0xFF < 256; omega
theorem witness_RejectedTextIsRefused : assemble "LCD_CMD".toList = none ∧
    assemble "TC_READ".toList = some [.tcRead] := by decide +kernel

end Sys2Proof.Tests.Slice0
end

/-! PROOFS. The statements of 00_scope.md: the decoded command is run, exact values are found, and the numeric
functions give no NaN. -/

namespace Sys2Proof

/-! ### The number format -/

/-- The units of what a `Num` denotes. -/
theorem Num64.toQ_mul_unitsPerOne (n : Num64) : n.toQ * ((unitsPerOne : Nat) : Rat) = (n.toUnits : Rat) :=
  div_mul_cancel₀ _ unitsPerOne_ne_zero

/-- A rational has a `Num` exactly when it is a whole number of units that has one. -/
theorem Num64.ofQ?_eq_some_iff {q : Rat} {n : Num64} :
    Num64.ofQ? q = some n ↔
      ∃ u : Int, q * ((unitsPerOne : Nat) : Rat) = (u : Rat) ∧ Num64.ofUnits? u = some n := by
  unfold Num64.ofQ?
  constructor
  · intro h
    simp only [Option.ite_none_right_eq_some] at h
    obtain ⟨hden, hu⟩ := h
    exact ⟨_, ((Rat.den_eq_one_iff _).1 hden).symm, hu⟩
  · rintro ⟨u, hq, hu⟩
    simp only [hq, Rat.den_intCast, Rat.num_intCast, if_true]
    exact hu

/-- The `Num` found for a rational denotes it. -/
theorem Num64.toQ_of_ofQ? {q : Rat} {n : Num64} (h : Num64.ofQ? q = some n) : n.toQ = q := by
  obtain ⟨u, hq, hu⟩ := Num64.ofQ?_eq_some_iff.1 h
  apply mul_right_cancel₀ unitsPerOne_ne_zero
  rw [Num64.toQ_mul_unitsPerOne, Num64.toUnits_of_ofUnits? hu, hq]

/-- `Num` from the rational it denotes, up to the sign of zero. -/
theorem Num64.ofQ?_toQ (n : Num64) : Num64.ofQ? n.toQ = some n.canon :=
  Num64.ofQ?_eq_some_iff.2 ⟨n.toUnits, n.toQ_mul_unitsPerOne, n.ofUnits?_toUnits⟩

/-! ### The numeric functions -/

/-- A result is finite when the exact result and the intermediates lie within the range (R148). -/
theorem realize_finite {free : FreeResult} {steps : List Rat} {q : Rat} (hq : inRange q = true)
    (hs : ∀ x ∈ steps, inRange x = true) : ∃ n, realize free steps q = .num n := by
  obtain ⟨-, v, -, h⟩ | ⟨-, -, h⟩ | ⟨hout, -⟩ := realize_cases free steps q
  · exact ⟨_, h⟩
  · exact ⟨_, h⟩
  · exact absurd ⟨hq, hs⟩ hout

namespace Machine

/-- The encoding of a `Num` has no exponent field of all ones (30_encoding.md R67). -/
theorem not_notFinite_toBits (n : Num64) : ¬ notFinite n.toBits := by
  intro h
  rw [notFinite, Num64.toBits_expo] at h
  have he := congrArg BitVec.toNat h
  have hlt := n.expo.isLt
  simp only [BitVec.toNat_ofNat] at he
  omega

/-- Each running sum is that of some of the oldest samples (45_filter.md R127). -/
theorem mem_runningSums {x : Rat} {w : List Num64} :
    ∀ {acc : Rat}, x ∈ runningSums acc w → ∃ k, k ≤ w.length ∧ x = acc + ((w.take k).map Num64.toQ).sum := by
  induction w with
  | nil => exact fun h => absurd h List.not_mem_nil
  | cons v w ih =>
    intro acc h
    rw [runningSums, List.mem_cons] at h
    obtain rfl | h := h
    · exact ⟨1, by simp, by simp⟩
    · obtain ⟨k, hk, rfl⟩ := ih h
      exact ⟨k + 1, by simpa using hk, by simp [add_assoc]⟩

/-- The sum of a window, as the sum of what its samples denote. -/
theorem windowSum_eq_sum (w : List Num64) : windowSum w = (w.map Num64.toQ).sum := by
  rw [windowSum, List.sum_eq_foldl, List.foldl_map]

theorem meanExact_eq (w : List Num64) : meanExact w = (w.map Num64.toQ).sum / (w.length : Rat) := by
  rw [meanExact, windowSum_eq_sum]

theorem numericsAmb_finite {vref : Rat} {fullScale x : Nat} (h₁ : inRange (vref / (fullScale : Rat)) = true)
    (h₂ : inRange ((x : Rat) * (vref / (fullScale : Rat))) = true)
    (hq : inRange (ambExact vref fullScale x) = true) : ∃ n, numericsAmb vref fullScale x = .num n := by
  by_cases hx : x = 0
  · exact ⟨_, hx ▸ numericsAmb_zero vref fullScale⟩
  · rw [numericsAmb_of_ne_zero vref fullScale hx]
    exact realize_finite hq (by simp [ambSteps, h₁, h₂])

theorem numericsMean_finite {w : List Num64}
    (hs : ∀ k, k ≤ w.length → inRange (((w.take k).map Num64.toQ).sum) = true)
    (hq : inRange (meanExact w) = true) : ∃ n, numericsMean w = .num n := by
  refine realize_finite hq fun x hx => ?_
  obtain ⟨k, hk, rfl⟩ := mem_runningSums hx
  rw [zero_add]
  exact hs k hk

theorem numericsComp_finite {tc amb : Num64} (hd : inRange (amb.toQ - tRefC) = true)
    (hq : inRange (compExact tc amb) = true) : ∃ n, numericsComp tc amb = .num n :=
  realize_finite hq (by simpa using hd)

/-! ### The step -/

/-- Between commands, with no refusal and no reset request, a step runs the command taken from the port. -/
theorem step_of_fetch {s t : State} {i : Instr} (hrefused : s.refused = false) (hreset : s.env.resetReq = false)
    (hub : s.ub = false) (hseq : s.seq = .ready) (hfetch : fetch s = some (i, t)) : step s = exec i t := by
  simp [step, hrefused, hreset, hub, hseq, hfetch]

/-- A command that decodes is taken with its bytes. -/
theorem fetch_of_decode {s : State} {i : Instr} {rest : List Byte} (h : decode s.env.port = .ok (i, rest)) :
    fetch s = some (i, s.setEnv { s.env with port := rest }) := by
  rw [fetch, h]

/-! ### The obligations -/

/-- Settles O36: the exponent field of a finite result is not all ones, an infinity has fraction 0, and each function
is `realize` of intermediates that the hypotheses put within the range (the sample 0 aside, which gives a zero). -/
theorem numericsNeverGivesANaN : Obligations.NumericsNeverGivesANaN := by
  refine ⟨fun v h => ?_, fun _ _ _ => numericsAmb_finite, fun w hs hq => ?_, fun _ _ => numericsComp_finite⟩
  · cases v with
    | num n => exact absurd h (not_notFinite_toBits n)
    | inf neg => exact ⟨neg, rfl, by cases neg <;> decide⟩
  · exact numericsMean_finite hs (by rwa [meanExact_eq])

/-- Settles O39: a `Num` is a whole number of units, and the units fix it up to the sign of zero. -/
theorem exactValuesAreFound : Obligations.ExactValuesAreFound :=
  ⟨Num64.ofQ?_toQ, fun _ _ => Num64.toQ_of_ofQ?⟩

/-- Settles O6: the port's bytes decode, so the command is fetched, and between commands a step runs it. -/
theorem stepRunsTheDecodedCommand : Obligations.StepRunsTheDecodedCommand :=
  fun _ _ _ hrefused hreset hub hseq hdecode => step_of_fetch hrefused hreset hub hseq (fetch_of_decode hdecode)

end Machine

end Sys2Proof

/-! PROOFS. The statements of 10_state.md: who writes each field, the trace, the sticky flags, the windows, and the
register invariant. All of them rest on one inversion, `exec_effect`: what a command can do to a state. -/

namespace Sys2Proof.Machine

/-! ### What a command can do to a state -/

/-- What command `i` can make of state `s`, written as updates of `s`: each constructor names all the fields its
commands write. -/
inductive Effect (s : State) : Instr → State → Prop where
  /-- An LCD command, completed or hung: the display flags are those of one of its lines. -/
  | lcd {i : Instr} (hlcd : isLcd i = true) {flags : LcdRegs}
      (hflags : flags ∈ s.lcdRegs :: (scriptOf s i).map Prod.fst) (seq : SeqPos) (evs : List Event)
      (hang : Option Nat) :
      Effect s i { s with
        seq := seq, bl := flags.1, dcf := flags.2, trace := s.trace ++ evs
        env := { s.env with busHang := hang } }
  /-- `LCD_SETCURSOR` to an undefined row (60_exceptions.md R161). -/
  | undefinedRow (col row : Byte) :
      Effect s (.lcdSetCursor col row) { s with
        seq := .exec (.lcdSetCursor col row) 0, ub := true
        ubInfo := some (s.ubInfo.getD (.setCursorRow row)) }
  /-- `TC_READ`, which leaves the pins idle. -/
  | tcRead (sr : BitVec 16) (evs : List Event) (env : Env) (hport : env.port = s.env.port) :
      Effect s .tcRead { s with
        seq := .ready, tcCs := true, tcSck := false, tcSr := sr, trace := s.trace ++ evs, env := env }
  /-- A push of a finite value to the thermocouple's window. -/
  | pushTc (bits : F64) (evs : List Event) :
      Effect s (.filtPushTc bits) { s with
        seq := .ready, winTc := pushWindow s.cfg.nTc s.winTc (numOperand bits), trace := s.trace ++ evs }
  /-- A push of a finite value to the ambient window. -/
  | pushAmb (bits : F64) (evs : List Event) :
      Effect s (.filtPushAmb bits) { s with
        seq := .ready, winAmb := pushWindow s.cfg.nAmb s.winAmb (numOperand bits), trace := s.trace ++ evs }
  /-- A command that only responds, perhaps after an ADC sample. -/
  | quiet {i : Instr} (hlcd : isLcd i = false) (evs : List Event) (env : Env) (hport : env.port = s.env.port) :
      Effect s i { s with seq := .ready, trace := s.trace ++ evs, env := env }

/-- Drawing samples takes no byte of the port. -/
theorem afterSamples_port (n : Nat) (e : Env) : (afterSamples n e).port = e.port := by
  induction n generalizing e with
  | zero => rfl
  | succ n ih => exact ih e.afterTc

/-- An undefined row keeps the first recorded `info` (10_state.md R36). -/
theorem exec_undefinedRow (s : State) (col row : Byte) (h : rowUndefined s.lcdRows row = true) :
    exec (.lcdSetCursor col row) s = .next { s with
      seq := .exec (.lcdSetCursor col row) 0, ub := true
      ubInfo := some (s.ubInfo.getD (.setCursorRow row)) } := by
  rw [exec_setCursor_undefined s col row h]
  cases s.ubInfo <;> rfl

/-- The effect of an LCD command. -/
theorem exec_effect_lcd {i : Instr} (hlcd : isLcd i = true) {s t : State} (h : exec i s = .next t) :
    Effect s i t := by
  obtain ⟨-, hdone⟩ | ⟨m, -, -, hhung⟩ | ⟨col, row, rfl, hrow⟩ := exec_lcd_cases i hlcd s
  · rw [hdone, List.append_assoc] at h
    cases h
    exact .lcd hlcd (regsAfter_mem _ _) _ _ _
  · rw [hhung] at h
    cases h
    exact .lcd hlcd (regsAt_mem _ m _) _ _ _
  · rw [exec_undefinedRow s col row hrow] at h
    cases h
    exact .undefinedRow col row

/-- The effect of any command. -/
theorem exec_effect {i : Instr} {s t : State} (h : exec i s = .next t) : Effect s i t := by
  cases i with
  | tcRead =>
    rw [exec, execTcRead_next, List.append_assoc] at h
    cases h
    exact .tcRead _ _ _ (afterSamples_port 16 s.env)
  | ambRead =>
    rw [exec, execAmbRead_next] at h
    cases h
    exact .quiet rfl _ _ rfl
  | filtPushTc bits =>
    obtain ⟨-, hpush⟩ | ⟨-, hbad⟩ := execFiltPushTc_next bits s
    · rw [exec, hpush] at h
      cases h
      exact .pushTc _ _
    · rw [exec, hbad] at h
      cases h
      exact .quiet rfl _ _ rfl
  | filtPushAmb bits =>
    obtain ⟨-, hpush⟩ | ⟨-, hbad⟩ := execFiltPushAmb_next bits s
    · rw [exec, hpush] at h
      cases h
      exact .pushAmb _ _
    · rw [exec, hbad] at h
      cases h
      exact .quiet rfl _ _ rfl
  | compensate tc amb =>
    obtain ⟨-, hcomp⟩ | ⟨-, hbad⟩ := execCompensate_next tc amb s
    · rw [exec, hcomp] at h
      cases h
      exact .quiet rfl _ _ rfl
    · rw [exec, hbad] at h
      cases h
      exact .quiet rfl _ _ rfl
  | reserved opc =>
    rw [exec, execReserved_next] at h
    cases h
    exact .quiet rfl _ _ rfl
  | _ => exact exec_effect_lcd rfl h

/-! ### The writers of each field -/

/-- The lines of every command but the two backlight commands leave `s.bl` as it was. -/
theorem scriptOf_bl {i : Instr} (hon : i ≠ .lcdBacklightOn) (hoff : i ≠ .lcdBacklightOff) (s : State) :
    ∀ flags ∈ (scriptOf s i).map Prod.fst, flags.1 = s.bl := by
  cases i with
  | lcdBacklightOn => exact absurd rfl hon
  | lcdBacklightOff => exact absurd rfl hoff
  | _ => simp [scriptOf, toggleScript]

/-- The commands that write `s.dcf` (10_state.md R25). -/
def dcfWriters : List Instr :=
  [.lcdInit, .lcdDisplayOn, .lcdDisplayOff, .lcdCursorOn, .lcdCursorOff, .lcdBlinkOn, .lcdBlinkOff]

/-- The lines of a command that is no writer of `s.dcf` leave it as it was. -/
theorem scriptOf_dcf {i : Instr} (hi : i ∉ dcfWriters) (s : State) :
    ∀ flags ∈ (scriptOf s i).map Prod.fst, flags.2 = s.dcf := by
  cases i with
  | lcdInit | lcdDisplayOn | lcdDisplayOff | lcdCursorOn | lcdCursorOff | lcdBlinkOn | lcdBlinkOff =>
    exact absurd (by simp [dcfWriters]) hi
  | _ => simp [scriptOf]

section Writers

variable {i : Instr} {s t : State}

/-- No command writes the parameters, the geometry, the refusal flag or the port. -/
theorem Effect.fixed (h : Effect s i t) :
    t.cfg = s.cfg ∧ t.lcdAddr = s.lcdAddr ∧ t.lcdCols = s.lcdCols ∧ t.lcdRows = s.lcdRows ∧
      t.refused = s.refused ∧ t.env.port = s.env.port := by
  cases h with
  | tcRead _ _ _ hport | quiet _ _ _ hport => exact ⟨rfl, rfl, rfl, rfl, rfl, hport⟩
  | _ => exact ⟨rfl, rfl, rfl, rfl, rfl, rfl⟩

/-- Only the backlight commands write `s.bl`. -/
theorem Effect.bl (h : Effect s i t) (hon : i ≠ .lcdBacklightOn) (hoff : i ≠ .lcdBacklightOff) :
    t.bl = s.bl := by
  cases h with
  | lcd _ hflags =>
    obtain rfl | hline := List.mem_cons.1 hflags
    · rfl
    · exact scriptOf_bl hon hoff s _ hline
  | _ => rfl

/-- Only `LCD_INIT` and the toggles write `s.dcf`. -/
theorem Effect.dcf (h : Effect s i t) (hi : i ∉ dcfWriters) : t.dcf = s.dcf := by
  cases h with
  | lcd _ hflags =>
    obtain rfl | hline := List.mem_cons.1 hflags
    · rfl
    · exact scriptOf_dcf hi s _ hline
  | _ => rfl

/-- Only `TC_READ` writes the pins and the shift register, and it leaves the pins idle. -/
theorem Effect.pins (h : Effect s i t) :
    (t.tcCs = s.tcCs ∧ t.tcSck = s.tcSck ∧ t.tcSr = s.tcSr) ∨
      (i = .tcRead ∧ t.tcCs = true ∧ t.tcSck = false) := by
  cases h with
  | tcRead => exact .inr ⟨rfl, rfl, rfl⟩
  | _ => exact .inl ⟨rfl, rfl, rfl⟩

/-- Only `FILT_PUSH_TC` writes its window, by a push. -/
theorem Effect.winTc (h : Effect s i t) :
    t.winTc = s.winTc ∨
      ∃ bits, i = .filtPushTc bits ∧ t.winTc = pushWindow s.cfg.nTc s.winTc (numOperand bits) := by
  cases h with
  | pushTc bits => exact .inr ⟨bits, rfl, rfl⟩
  | _ => exact .inl rfl

/-- Only `FILT_PUSH_AMB` writes its window, by a push. -/
theorem Effect.winAmb (h : Effect s i t) :
    t.winAmb = s.winAmb ∨
      ∃ bits, i = .filtPushAmb bits ∧ t.winAmb = pushWindow s.cfg.nAmb s.winAmb (numOperand bits) := by
  cases h with
  | pushAmb bits => exact .inr ⟨bits, rfl, rfl⟩
  | _ => exact .inl rfl

/-- Only `LCD_SETCURSOR` raises `Undefined`; it keeps the first `info` and leaves the Engine inside the command. -/
theorem Effect.ub (h : Effect s i t) :
    (t.ub = s.ub ∧ t.ubInfo = s.ubInfo) ∨
      ∃ col row, i = .lcdSetCursor col row ∧ t.ub = true ∧
        t.ubInfo = some (s.ubInfo.getD (.setCursorRow row)) ∧ t.seq ≠ .ready := by
  cases h with
  | undefinedRow col row => exact .inr ⟨col, row, rfl, rfl, rfl, nofun⟩
  | _ => exact .inl ⟨rfl, rfl⟩

/-- Events are only appended. -/
theorem Effect.trace (h : Effect s i t) : s.trace <+: t.trace := by
  cases h with
  | undefinedRow => exact List.prefix_rfl
  | _ => exact List.prefix_append _ _

end Writers

/-- Settles O46: the effect of a command leaves each field it is not named for. -/
theorem eachFieldHasItsWriters : Obligations.EachFieldHasItsWriters := by
  intro i s t h
  have eff := exec_effect h
  obtain ⟨hcfg, haddr, hcols, hrows, hrefused, hport⟩ := eff.fixed
  refine ⟨hcfg, haddr, hcols, hrows, hrefused, hport, eff.bl, eff.dcf, fun hi => ?_, fun hi => ?_, fun hi => ?_,
    fun hi => ?_⟩
  · exact eff.pins.resolve_right fun ⟨hread, _⟩ => hi hread
  · exact eff.winTc.resolve_right fun ⟨bits, hpush, _⟩ => hi bits hpush
  · exact eff.winAmb.resolve_right fun ⟨bits, hpush, _⟩ => hi bits hpush
  · exact eff.ub.resolve_right fun ⟨col, row, hcursor, _⟩ => hi col row hcursor

/-! ### Steps -/

/-- A step that is no reset waits, or is a command run from a state that differs in the port only. -/
theorem step_effect {s t : State} (hreset : s.env.resetReq = false) (h : step s = .next t) :
    t = s ∨ ∃ i rest, Effect (s.setEnv { s.env with port := rest }) i t := by
  obtain ⟨-, ⟨hreq, -⟩ | ⟨-, -, -, ⟨-, -, rfl⟩ | ⟨i, rest, -, hexec⟩⟩⟩ := step_cases h
  · rw [hreset] at hreq
    cases hreq
  · exact .inl rfl
  · exact .inr ⟨i, rest, exec_effect hexec⟩

/-- Settles O47: every effect appends to the trace, and a waiting step keeps it. -/
theorem traceIsOnlyAppendedTo : Obligations.TraceIsOnlyAppendedTo := by
  refine ⟨fun i s t h => (exec_effect h).trace, fun s t hreset h => ?_⟩
  obtain rfl | ⟨i, rest, eff⟩ := step_effect hreset h
  · exact List.prefix_rfl
  · exact eff.trace

/-- A step from an undefined state can only be the refusal of a reset request (60_exceptions.md R161). -/
theorem step_of_ub {s t : State} (hub : s.ub = true) (h : step s = .next t) :
    t = (s.setEnv { s.env with resetReq := false }).refuse := by
  obtain ⟨-, ⟨-, rfl⟩ | ⟨-, hnub, -⟩⟩ := step_cases h
  · obtain ⟨-, hnub, -⟩ | ⟨-, hrefuse⟩ := takeReset_cases s
    · rw [hub] at hnub
      cases hnub
    · exact hrefuse
  · rw [hub] at hnub
    cases hnub

/-- Settles O49: `Undefined` is only ever raised, with the first `info` kept; after it a step can only refuse a reset,
and a refused run has no step. -/
theorem stickyFlagsStay : Obligations.StickyFlagsStay := by
  refine ⟨fun i s t h => ?_, fun s t h hub => ?_, fun s hrefused => if_pos hrefused⟩
  · have eff := exec_effect h
    obtain ⟨-, -, -, -, hrefused, -⟩ := eff.fixed
    refine ⟨?_, hrefused.trans, ?_⟩ <;>
      obtain ⟨hub, hinfo⟩ | ⟨_, _, -, hub, hinfo, -⟩ := eff.ub
    · exact hub.trans
    · exact fun _ => hub
    · exact fun _ => hinfo.trans
    · exact fun first hfirst => by rw [hinfo, hfirst, Option.getD_some]
  · obtain rfl := step_of_ub hub h
    exact ⟨hub, rfl⟩

/-- Settles O50: a window is written by pushes only, and a push leaves its sample in it. -/
theorem windowsAreNeverEmptied : Obligations.WindowsAreNeverEmptied := by
  intro s t hreset h
  obtain rfl | ⟨i, rest, eff⟩ := step_effect hreset h
  · exact ⟨id, id⟩
  · constructor
    · obtain hkept | ⟨_, -, hpush⟩ := eff.winTc
      · exact fun hne => hkept ▸ hne
      · exact fun _ => hpush ▸ pushWindow_ne_nil _ _ _
    · obtain hkept | ⟨_, -, hpush⟩ := eff.winAmb
      · exact fun hne => hkept ▸ hne
      · exact fun _ => hpush ▸ pushWindow_ne_nil _ _ _

/-! ### The register invariant -/

/-- A push leaves no `-0.0` in a window that had none (45_filter.md R135). -/
theorem canon_of_mem_pushWindow {cap : Nat} {w : List Num64} {v : Num64} (hw : ∀ x ∈ w, x.canon = x) :
    ∀ x ∈ pushWindow cap w v, x.canon = x := by
  intro x hx
  obtain hold | rfl := mem_pushWindow hx
  · exact hw x hold
  · exact canon_canon v

/-- A valid configuration has room for a sample in each window. -/
theorem capacities_pos {c : Config} (h : configValid c = true) : 1 ≤ c.nTc ∧ 1 ≤ c.nAmb := by
  simp only [configValid, Bool.and_eq_true, decide_eq_true_eq] at h
  obtain ⟨⟨-, hTc⟩, hAmb⟩ := h
  exact ⟨hTc, hAmb⟩

/-- The register invariant holds after reset, whatever the configuration. -/
theorem regsOk_resetOf (c : Config) : RegsOk (State.resetOf c) where
  cfgOk := by cases h : configValid c <;> simp [h]
  addrOk := rfl
  colsOk := rfl
  rowsOk := rfl
  winTcOk := Nat.zero_le _
  winAmbOk := Nat.zero_le _
  winTcCan := nofun
  winAmbCan := nofun
  csHigh := rfl
  sckLow := rfl
  ubInfoOk := rfl
  ubStuck := nofun

/-- The register invariant does not speak of the agents' inputs. -/
theorem RegsOk.setEnv {s : State} (h : RegsOk s) (e : Env) : RegsOk (s.setEnv e) :=
  ⟨h.cfgOk, h.addrOk, h.colsOk, h.rowsOk, h.winTcOk, h.winAmbOk, h.winTcCan, h.winAmbCan, h.csHigh, h.sckLow,
    h.ubInfoOk, h.ubStuck⟩

/-- A refusal keeps the register invariant. -/
theorem RegsOk.refuse {s : State} (h : RegsOk s) : RegsOk s.refuse :=
  ⟨.inr rfl, h.addrOk, h.colsOk, h.rowsOk, h.winTcOk, h.winAmbOk, h.winTcCan, h.winAmbCan, h.csHigh, h.sckLow,
    h.ubInfoOk, h.ubStuck⟩

/-- A reset request, served or refused, keeps the register invariant. -/
theorem RegsOk.takeReset {s : State} (h : RegsOk s) : RegsOk (takeReset s) := by
  obtain ⟨-, -, hserved⟩ | ⟨-, hrefused⟩ := takeReset_cases s
  · rw [hserved]
    exact (regsOk_resetOf s.cfg).setEnv _
  · rw [hrefused]
    exact (h.setEnv _).refuse

/-- A command run in a state that is neither refused nor undefined keeps the register invariant. -/
theorem RegsOk.effect {i : Instr} {s t : State} (h : RegsOk s) (hrefused : s.refused = false) (hub : s.ub = false)
    (eff : Effect s i t) : RegsOk t := by
  have hvalid : configValid s.cfg = true := h.cfgOk.resolve_right (by simp [hrefused])
  obtain ⟨hcapTc, hcapAmb⟩ := capacities_pos hvalid
  obtain ⟨hcfg, haddr, hcols, hrows, -, -⟩ := eff.fixed
  have hwinTc : t.winTc.length ≤ s.cfg.nTc ∧ ∀ v ∈ t.winTc, v.canon = v := by
    obtain hkept | ⟨_, -, hpush⟩ := eff.winTc
    · exact hkept ▸ ⟨h.winTcOk, h.winTcCan⟩
    · exact hpush ▸ ⟨length_pushWindow_le _ hcapTc h.winTcOk, canon_of_mem_pushWindow h.winTcCan⟩
  have hwinAmb : t.winAmb.length ≤ s.cfg.nAmb ∧ ∀ v ∈ t.winAmb, v.canon = v := by
    obtain hkept | ⟨_, -, hpush⟩ := eff.winAmb
    · exact hkept ▸ ⟨h.winAmbOk, h.winAmbCan⟩
    · exact hpush ▸ ⟨length_pushWindow_le _ hcapAmb h.winAmbOk, canon_of_mem_pushWindow h.winAmbCan⟩
  have hpins : t.tcCs = true ∧ t.tcSck = false := by
    obtain ⟨hcs, hsck, -⟩ | ⟨-, hidle⟩ := eff.pins
    · exact ⟨hcs.trans h.csHigh, hsck.trans h.sckLow⟩
    · exact hidle
  have hflags : t.ub = t.ubInfo.isSome ∧ (t.ub = true → t.seq ≠ .ready) := by
    obtain ⟨hkept, hinfo⟩ | ⟨_, _, -, hraised, hinfo, hseq⟩ := eff.ub
    · exact ⟨by rw [hkept, hinfo, h.ubInfoOk], fun hraised => by simp [hkept, hub] at hraised⟩
    · exact ⟨by rw [hraised, hinfo, Option.isSome_some], fun _ => hseq⟩
  exact {
    cfgOk := .inl (hcfg ▸ hvalid)
    addrOk := by rw [haddr, hcfg, h.addrOk]
    colsOk := by rw [hcols, hcfg, h.colsOk]
    rowsOk := by rw [hrows, hcfg, h.rowsOk]
    winTcOk := hcfg ▸ hwinTc.1
    winAmbOk := hcfg ▸ hwinAmb.1
    winTcCan := hwinTc.2
    winAmbCan := hwinAmb.2
    csHigh := hpins.1
    sckLow := hpins.2
    ubInfoOk := hflags.1
    ubStuck := hflags.2 }

/-- Settles O43: a step takes or refuses a reset, waits, or runs a command in a state that is neither refused nor
undefined, and each keeps the register invariant. -/
theorem stepKeepsTheRegisterInvariant : Obligations.StepKeepsTheRegisterInvariant := by
  intro s t h hstep
  obtain ⟨hrefused, ⟨-, rfl⟩ | ⟨-, hub, -, ⟨-, -, rfl⟩ | ⟨i, rest, -, hexec⟩⟩⟩ := step_cases hstep
  · exact h.takeReset
  · exact h
  · exact (h.setEnv { s.env with port := rest }).effect hrefused hub (exec_effect hexec)

end Sys2Proof.Machine

/-! PROOFS. The statements of 20_memory.md: the protocols of both serial interfaces, the control byte, the hung
bus write, the raw word, and the wait for a whole command. -/

namespace Sys2Proof.Machine

/-! ### The events of a command, as the monitors read them -/

/-- Events without a bus write leave the display interface idle. -/
theorem lcdMonitor_of_noWrites {c : Config} {evs : List Event} (h : busBytes evs = []) :
    lcdMonitor c .idle evs = some .idle := by
  induction evs with
  | nil => rfl
  | cons e evs ih =>
    cases e with
    | busWrite a b => cases h
    | _ => exact ih h

/-- The bare write of a legal configuration is backlight-only (30_encoding.md R69). -/
theorem lcdMonitor_backlight {c : Config} (h : masksValid c = true) (bl : Bool) :
    lcdMonitor c .idle [.busWrite c.lcdAddr (ctrl c 0#4 false false bl)] = some .idle := by
  obtain ⟨-, -, -, hdisjoint, hwrites⟩ := ctrl_monitored c h false false 0
  have hzero : writesOnly c 0#8 = true := by simp [writesOnly]
  cases bl <;> simp [ctrl, lcdMonitor, lcdNext, hdisjoint, hwrites, hzero]

/-- A wait between transactions leaves the display interface idle. -/
theorem lcdMonitor_wait (c : Config) (d : Nat) : lcdMonitor c .idle [.wait d] = some .idle := rfl

/-- A script keeps the display's rules when each of its lines does, from idle to idle. -/
theorem lcdMonitor_events {c : Config} {es : Script} (h : ∀ line ∈ es, lcdMonitor c .idle line.2 = some .idle) :
    lcdMonitor c .idle es.events = some .idle := by
  induction es with
  | nil => rfl
  | cons line es ih =>
    obtain ⟨hline, hes⟩ := List.forall_mem_cons.1 h
    rw [Script.events, lcdMonitor_append, hline, Option.bind_some, ih hes]

/-- The script of every command keeps the display's rules and leaves no nibble transaction open. -/
theorem lcdMonitor_script {s : State} (hmasks : masksValid s.cfg = true) (haddr : s.lcdAddr = s.cfg.lcdAddr)
    (i : Instr) : lcdMonitor s.cfg .idle (scriptOf s i).events = some .idle := by
  have hnil : lcdMonitor s.cfg .idle [] = some .idle := rfl
  apply lcdMonitor_events
  cases i <;> simp [scriptOf, toggleScript, haddr, lcdMonitor_append, lcdMonitor_nibble _ hmasks,
    lcdMonitor_byte _ hmasks, lcdMonitor_backlight hmasks, lcdMonitor_wait, hnil]

/-- Bus writes and waits begin with bus writes and waits only. -/
theorem onlyBus_prefix {xs ys : List Event} (hp : xs <+: ys) (h : onlyBus ys = true) : onlyBus xs = true := by
  obtain ⟨zs, rfl⟩ := hp
  induction xs with
  | nil => rfl
  | cons e xs ih => cases e <;> simp_all [onlyBus]

/-- A trace cut at one of its writes ends in that write. -/
theorem upToWrite_ends_in_write {evs : List Event} {k : Nat} (hk : k < writeCount evs) :
    ∃ tr a b, upToWrite k evs = tr ++ [.busWrite a b] := by
  induction evs generalizing k with
  | nil => simp at hk
  | cons e evs ih =>
    cases e with
    | busWrite a b =>
      cases k with
      | zero => exact ⟨[], a, b, rfl⟩
      | succ k =>
        obtain ⟨tr, a', b', htr⟩ := ih (k := k) (by simpa using hk)
        exact ⟨.busWrite a b :: tr, a', b', by simp [upToWrite, htr]⟩
    | _ =>
      obtain ⟨tr, a', b', htr⟩ := ih (k := k) hk
      exact ⟨_ :: tr, a', b', by rw [upToWrite, htr, List.cons_append]⟩

/-- A read makes no bus write. -/
theorem busBytes_tcEvents (c : Config) (bits : List Bool) : busBytes (tcEvents c bits) = [] := by
  have hclocks : busBytes (bits.flatMap (clockEvents c)) = [] := by
    induction bits with
    | nil => rfl
    | cons b bits ih => simp [clockEvents, busBytes, ih]
  simp [tcEvents, busBytes_append, hclocks, busBytes]

/-- Each clock of a read takes the interface from low to low, one clock further (43_thermocouple.md R113). -/
theorem tcMonitor_clocks (c : Config) {n : Nat} {bits : List Bool} (h : n + bits.length ≤ 16) :
    tcMonitor (.low n) (bits.flatMap (clockEvents c)) = some (.low (n + bits.length)) := by
  induction bits generalizing n with
  | nil => rfl
  | cons b bits ih =>
    rw [List.length_cons] at h
    have hclock : tcMonitor (.low n) (clockEvents c b) = some (.low (n + 1)) := by
      simp [clockEvents, tcMonitor, tcNext, show n < 16 by omega]
    rw [List.flatMap_cons, tcMonitor_append, hclock, Option.bind_some, ih (by omega), List.length_cons,
      Nat.add_right_comm, Nat.add_assoc]

/-- A read of sixteen bits keeps the thermocouple's rules and closes (43_thermocouple.md R118). -/
theorem tcMonitor_read (c : Config) {bits : List Bool} (h : bits.length = 16) :
    tcMonitor .idle (tcEvents c bits) = some .idle := by
  have hclocks := tcMonitor_clocks c (n := 0) (bits := bits) (by omega)
  simp only [h, Nat.zero_add] at hclocks
  simp [tcEvents, tcMonitor_append, tcMonitor, tcNext, hclocks]

/-- A command that is none of the LCD engine ends, with events that make no bus write and keep the thermocouple's
rules. -/
theorem exec_next_of_not_lcd {i : Instr} (hlcd : isLcd i = false) (s : State) :
    ∃ t evs, exec i s = .next t ∧ t.seq = .ready ∧ t.trace = s.trace ++ evs ∧ busBytes evs = [] ∧
      tcMonitor .idle evs = some .idle := by
  cases i with
  | tcRead =>
    refine ⟨_, _, execTcRead_next s, rfl, List.append_assoc .., ?_, ?_⟩
    · simp [busBytes_append, busBytes_tcEvents, busBytes]
    · simp [tcMonitor_append, tcMonitor_read _ (length_tcSamples ..), readBits, tcMonitor, tcNext]
  | ambRead => exact ⟨_, _, execAmbRead_next s, rfl, rfl, rfl, rfl⟩
  | filtPushTc bits =>
    obtain ⟨-, hexec⟩ | ⟨-, hexec⟩ := execFiltPushTc_next bits s <;> exact ⟨_, _, hexec, rfl, rfl, rfl, rfl⟩
  | filtPushAmb bits =>
    obtain ⟨-, hexec⟩ | ⟨-, hexec⟩ := execFiltPushAmb_next bits s <;> exact ⟨_, _, hexec, rfl, rfl, rfl, rfl⟩
  | compensate tc amb =>
    obtain ⟨-, hexec⟩ | ⟨-, hexec⟩ := execCompensate_next tc amb s <;> exact ⟨_, _, hexec, rfl, rfl, rfl, rfl⟩
  | reserved opc => exact ⟨_, _, execReserved_next opc s, rfl, rfl, rfl, rfl⟩
  | _ => cases hlcd

/-! ### The trace invariant -/

/-- The trace invariant speaks of the configuration, the Engine's position, `Undefined` and the trace. -/
theorem TraceOk.of_eq {s t : State} (h : TraceOk s) (hcfg : t.cfg = s.cfg) (hseq : t.seq = s.seq) (hub : t.ub = s.ub)
    (htrace : t.trace = s.trace) : TraceOk t where
  lcdOk := by rw [hcfg, hseq, htrace]; exact h.lcdOk
  tcOk := htrace ▸ h.tcOk
  stuck := by rw [hseq, hub, htrace]; exact h.stuck

/-- A reset request, served or refused, keeps the trace invariant. -/
theorem TraceOk.takeReset {s : State} (h : TraceOk s) : TraceOk (takeReset s) := by
  obtain ⟨-, -, hserved⟩ | ⟨-, hrefused⟩ := takeReset_cases s
  · rw [hserved]
    exact ⟨⟨.idle, rfl, fun _ => rfl⟩, rfl, fun hseq => absurd rfl hseq⟩
  · rw [hrefused]
    exact h.of_eq rfl rfl rfl rfl

/-- Between commands both interfaces are idle, so what is appended may be checked from there. -/
theorem TraceOk.append {s t : State} {evs : List Event} {p : LcdPhase} (h : TraceOk s) (hready : s.seq = .ready)
    (hcfg : t.cfg = s.cfg) (htrace : t.trace = s.trace ++ evs) (hlcd : lcdMonitor s.cfg .idle evs = some p)
    (hidle : t.seq = .ready → p = .idle) (htc : tcMonitor .idle evs = some .idle)
    (hstuck : t.seq ≠ .ready → t.ub = true ∨ ∃ tr a b, evs = tr ++ [.busWrite a b]) : TraceOk t where
  lcdOk := by
    obtain ⟨q, hq, hqidle⟩ := h.lcdOk
    refine ⟨p, ?_, hidle⟩
    rw [hcfg, htrace, lcdMonitor_append, hq, hqidle hready, Option.bind_some, hlcd]
  tcOk := by rw [htrace, tcMonitor_append, h.tcOk, Option.bind_some, htc]
  stuck := fun hseq => (hstuck hseq).imp_right fun ⟨tr, a, b, hevs⟩ =>
    ⟨s.trace ++ tr, a, b, by rw [htrace, hevs, List.append_assoc]⟩

/-- An LCD command keeps the trace invariant: it plays its whole script and responds, or the script up to the write
that never returns, or nothing when the row is undefined. -/
theorem TraceOk.exec_lcd {i : Instr} {s t : State} (h : TraceOk s) (hready : s.seq = .ready)
    (hmasks : masksValid s.cfg = true) (haddr : s.lcdAddr = s.cfg.lcdAddr) (hlcd : isLcd i = true)
    (hexec : exec i s = .next t) : TraceOk t := by
  have hscript := lcdMonitor_script hmasks haddr i
  obtain ⟨-, hdone⟩ | ⟨m, -, hm, hhung⟩ | ⟨col, row, rfl, hrow⟩ := exec_lcd_cases i hlcd s
  · rw [hdone, List.append_assoc] at hexec
    cases hexec
    refine h.append hready rfl rfl (p := .idle) ?_ (fun _ => rfl) ?_ (fun hseq => absurd rfl hseq)
    · rw [lcdMonitor_append, hscript]
      rfl
    · rw [tcMonitor_append, tcMonitor_bus _ (onlyBus_script s i)]
      rfl
  · rw [hhung] at hexec
    cases hexec
    have hprefix := upToWrite_prefix (scriptOf s i).events m
    obtain ⟨p, hp⟩ := lcdMonitor_prefix hprefix hscript
    exact h.append hready rfl rfl hp nofun (tcMonitor_bus _ (onlyBus_prefix hprefix (onlyBus_script s i)))
      fun _ => .inr (upToWrite_ends_in_write hm)
  · rw [exec_undefinedRow s col row hrow] at hexec
    cases hexec
    exact h.append hready rfl (List.append_nil _).symm rfl nofun rfl fun _ => .inl rfl

/-- Any command, run between commands, keeps the trace invariant. -/
theorem TraceOk.exec {i : Instr} {s t : State} (h : TraceOk s) (hready : s.seq = .ready)
    (hmasks : masksValid s.cfg = true) (haddr : s.lcdAddr = s.cfg.lcdAddr) (hexec : exec i s = .next t) :
    TraceOk t := by
  cases hlcd : isLcd i with
  | true => exact h.exec_lcd hready hmasks haddr hlcd hexec
  | false =>
    obtain ⟨hcfg, -⟩ := (exec_effect hexec).fixed
    obtain ⟨t', evs, hexec', hseq, htrace, hwrites, htc⟩ := exec_next_of_not_lcd hlcd s
    obtain rfl : t' = t := by simpa [hexec'] using hexec
    exact h.append hready hcfg htrace (lcdMonitor_of_noWrites hwrites) (fun _ => rfl) htc (absurd hseq)

/-- The masks of a valid configuration are legal. -/
theorem masksValid_of_configValid {c : Config} (h : configValid c = true) : masksValid c = true := by
  simp only [configValid, Bool.and_eq_true] at h
  obtain ⟨⟨⟨⟨⟨⟨-, hmasks⟩, -⟩, -⟩, -⟩, -⟩, -⟩ := h
  exact hmasks

/-- Settles O44: a step takes or refuses a reset, waits, or runs a command between commands, where both interfaces
are idle; each keeps the trace invariant, and O43 has the registers. -/
theorem stepKeepsTheProtocols : Obligations.StepKeepsTheProtocols := by
  intro s t h hstep
  refine ⟨stepKeepsTheRegisterInvariant s t h.regs hstep, ?_⟩
  obtain ⟨hrefused, ⟨-, rfl⟩ | ⟨-, -, hready, ⟨-, -, rfl⟩ | ⟨i, rest, -, hexec⟩⟩⟩ := step_cases hstep
  · exact h.trace.takeReset
  · exact h.trace
  · have hvalid : configValid s.cfg = true := h.regs.cfgOk.resolve_right (by simp [hrefused])
    have hport : TraceOk (s.setEnv { s.env with port := rest }) := h.trace.of_eq rfl rfl rfl rfl
    exact hport.exec hready (masksValid_of_configValid hvalid) h.regs.addrOk hexec

/-! ### The control byte -/

/-- The four low bits, one by one. -/
theorem isLowBit_iff (m : Byte) : isLowBit m = true ↔ m = 1 ∨ m = 2 ∨ m = 4 ∨ m = 8 := by
  simp [isLowBit, or_assoc]

/-- Two low bits have no bit in common. -/
theorem and_of_isLowBit {m m' : Byte} (h : isLowBit m = true) (h' : isLowBit m' = true) (hne : m ≠ m') :
    m &&& m' = 0#8 := by
  rw [isLowBit_iff] at h h'
  obtain rfl | rfl | rfl | rfl := h <;> obtain rfl | rfl | rfl | rfl := h' <;> revert hne <;> decide

/-- A shifted nibble has no low bit. -/
theorem nibble_and_of_isLowBit (n : BitVec 4) {m : Byte} (h : isLowBit m = true) :
    (n.setWidth 8 <<< 4) &&& m = 0#8 := by
  rw [isLowBit_iff] at h
  obtain rfl | rfl | rfl | rfl := h <;> revert n <;> decide

/-- The high nibble of a shifted nibble is the nibble. -/
theorem highNibble_nibble (n : BitVec 4) : (n.setWidth 8 <<< 4).extractLsb' 4 4 = n := by
  revert n
  decide

/-- A low bit, written or not, has nothing in the high nibble. -/
theorem highNibble_select {m : Byte} (h : isLowBit m = true) (on : Bool) :
    (if on then m else 0#8).extractLsb' 4 4 = 0#4 := by
  rw [isLowBit_iff] at h
  obtain rfl | rfl | rfl | rfl := h <;> cases on <;> rfl

/-- Reading a mask that is written or not through another. -/
theorem select_and (on : Bool) (m m' : Byte) : (if on then m else 0#8) &&& m' = if on then m &&& m' else 0#8 := by
  cases on <;> simp

/-- The control byte of legal masks holds the nibble and the masks only; its Enable-high form is the monitor's. -/
theorem writesOnly_ctrl {c : Config} (h : masksValid c = true) (n : BitVec 4) (rs en bl : Bool) :
    writesOnly c (ctrl c n rs en bl) = true := by
  obtain ⟨hhigh, -, hlow, -⟩ := ctrl_monitored c h rs bl n
  cases en with
  | true => exact hhigh
  | false =>
    simp only [writesOnly, beq_iff_eq] at hhigh ⊢
    rw [hlow, BitVec.and_assoc, BitVec.and_comm (~~~c.enMask), ← BitVec.and_assoc, hhigh]
    exact BitVec.zero_and

/-- Settles O9: the shifted nibble and the three masks have no bit in common, so each is read back from their OR. -/
theorem controlByteFields : Obligations.ControlByteFields := by
  intro c n rs en bl h
  have hrest : ctrl c n rs en bl &&& (0x0F &&& ~~~(c.rsMask ||| c.enMask ||| c.blMask)) = 0 :=
    beq_iff_eq.1 (writesOnly_ctrl h n rs en bl)
  simp only [masksValid, Bool.and_eq_true, bne_iff_ne] at h
  obtain ⟨⟨⟨⟨⟨hrs, hen⟩, hbl⟩, hrsen⟩, hrsbl⟩, henbl⟩ := h
  refine ⟨?_, ?_, ?_, ?_, hrest⟩
  · simp [ctrl, BitVec.extractLsb'_or, highNibble_nibble, highNibble_select, hrs, hen, hbl]
  · simp [ctrl, BitVec.and_or_distrib_right, select_and, nibble_and_of_isLowBit n hrs, and_of_isLowBit hen hrs hrsen.symm,
      and_of_isLowBit hbl hrs hrsbl.symm]
  · simp [ctrl, BitVec.and_or_distrib_right, select_and, nibble_and_of_isLowBit n hen, and_of_isLowBit hrs hen hrsen,
      and_of_isLowBit hbl hen henbl.symm]
  · simp [ctrl, BitVec.and_or_distrib_right, select_and, nibble_and_of_isLowBit n hbl, and_of_isLowBit hrs hbl hrsbl,
      and_of_isLowBit hen hbl henbl]

/-! ### A bus write that never returns -/

/-- Where the display has at most four rows, the row bound alone decides (42_lcd_operations.md R97). -/
theorem rowUndefined_iff {lcdRows : Nat} (h : lcdRows ≤ 4) (row : Byte) :
    rowUndefined lcdRows row = true ↔ lcdRows ≤ row.toNat := by
  simp only [rowUndefined, Bool.or_eq_true, decide_eq_true_eq]
  omega

/-- The model's row offset is that of the table, within it. -/
theorem rowOffset_eq {row : Byte} (h : row.toNat < 4) : rowOffset row = offsetOfRow row := by
  have hrow : row = 0 ∨ row = 1 ∨ row = 2 ∨ row = 3 := by bv_omega
  obtain rfl | rfl | rfl | rfl := hrow <;> rfl

/-- The events of a command's script are those the statements write out, an undefined row apart. -/
theorem events_scriptOf {s : State} {i : Instr} (hrows : s.lcdRows ≤ 4) (hrow : ¬ undefinedRow s i) :
    (scriptOf s i).events = lcdScript s i := by
  cases i with
  | lcdInit =>
    simp only [scriptOf, Script.events, lcdScript, initEvents, List.append_assoc, List.append_nil]
    rfl
  | lcdSetCursor col row =>
    have hdefined : row.toNat < s.lcdRows := Nat.lt_of_not_le hrow
    simp [scriptOf, Script.events, lcdScript, ddramCommand, rowOffset_eq (hdefined.trans_le hrows)]
  | lcdBacklightOn | lcdBacklightOff => simp [scriptOf, Script.events, lcdScript, ctrl]
  | lcdClear | lcdHome | tcRead | ambRead | filtPushTc _ | filtPushAmb _ | compensate _ _ | reserved _ => rfl
  | _ => exact List.append_nil _

/-- Only the LCD engine writes to the bus. -/
theorem isLcd_of_writes {s : State} {i : Instr} {k : Nat} (hk : k < writeCount (scriptOf s i).events) :
    isLcd i = true := by
  cases i with
  | tcRead | ambRead | filtPushTc _ | filtPushAmb _ | compensate _ _ | reserved _ =>
    exact absurd hk (Nat.not_lt_zero k)
  | _ => rfl

/-- The lines of the initialization sequence hold 2, 2, 2, 2, 4, 4, 4 and 4 writes (41_lcd_init.md R89). -/
theorem lineOf_lcdInit (s : State) {k : Nat} (hk : k < 24) :
    (scriptOf s .lcdInit).lineOf k = lineOfWrite .lcdInit k := by
  have hline : lineOfWrite .lcdInit k = if k < 2 then 0 else if k < 4 then 1 else if k < 6 then 2
    else if k < 8 then 3 else if k < 12 then 4 else if k < 16 then 5 else if k < 20 then 6 else 7 := rfl
  rw [hline]
  simp only [scriptOf, Script.lineOf, writeCount_append, writeCount_nibble, writeCount_byte, writeCount_wait,
    writeCount_nil, Nat.add_zero]
  repeat' split
  all_goals omega

/-- The line of a write of a command's script is the one the statements name: all writes of a command but the
initialization sequence stand in one line. -/
theorem lineOf_scriptOf {s : State} {i : Instr} {k : Nat} (hk : k < writeCount (scriptOf s i).events) :
    (scriptOf s i).lineOf k = lineOfWrite i k := by
  have hlcd := isLcd_of_writes hk
  cases i with
  | lcdInit => exact lineOf_lcdInit s hk
  | lcdCmd _ | lcdData _ | lcdClear | lcdHome => exact if_pos hk
  | lcdSetCursor _ _ => exact congrArg (· + 2) (if_pos hk)
  | tcRead | ambRead | filtPushTc _ | filtPushAmb _ | compensate _ _ | reserved _ => cases hlcd
  | _ => exact congrArg (· + 1) (if_pos hk)

/-- Where every line of a script leaves the same flags, those are the flags at every write. -/
theorem regsAt_of_constant {es : Script} {flags : LcdRegs} {n : Nat}
    (h : es.map Prod.fst = List.replicate (n + 1) flags) (m : Nat) (r : LcdRegs) : es.regsAt m r = flags := by
  induction es generalizing n m r with
  | nil => cases h
  | cons line es ih =>
    obtain ⟨hline, hes⟩ := List.cons.inj h
    rw [Script.regsAt]
    split
    · exact hline
    · cases n with
      | zero =>
        obtain rfl := List.map_eq_nil_iff.1 hes
        exact hline
      | succ n => exact ih hes _ _

/-- The initialization sequence writes the display flags in its line 5, after twelve writes. -/
theorem regsAt_lcdInit (s : State) (k : Nat) :
    (scriptOf s .lcdInit).regsAt k s.lcdRegs = (s.bl, if k < 12 then s.dcf else 0b100) := by
  simp only [scriptOf, Script.regsAt, writeCount_append, writeCount_nibble, writeCount_byte, writeCount_wait,
    writeCount_nil, Nat.add_zero]
  split_ifs <;> simp [initFlags] <;> omega

/-- The flags at a write of a command's script are those the statements name: all lines of a command but the
initialization sequence leave the same. -/
theorem regsAt_scriptOf {i : Instr} (hlcd : isLcd i = true) (s : State) (k : Nat) :
    (scriptOf s i).regsAt k s.lcdRegs = (backlightAfter i s.bl, flagsAtWrite i k s.dcf) := by
  cases i with
  | lcdInit => exact regsAt_lcdInit s k
  | lcdCmd _ | lcdData _ => exact regsAt_of_constant (n := 0) rfl k _
  | lcdSetCursor _ _ => exact regsAt_of_constant (n := 2) rfl k _
  | tcRead | ambRead | filtPushTc _ | filtPushAmb _ | compensate _ _ | reserved _ => cases hlcd
  | _ => exact regsAt_of_constant (n := 1) rfl k _

/-- Settles O18: with the draw `k` below the script's writes, and the row defined, the command can only stop at the
`k`-th write of its script. -/
theorem hungWriteEndsTheCommandThere : Obligations.HungWriteEndsTheCommandThere := by
  intro s i k hhang hk hrows hrow
  rw [← events_scriptOf hrows hrow] at hk ⊢
  have hlcd := isLcd_of_writes hk
  obtain ⟨hallows, -⟩ | ⟨m, hm, -, hexec⟩ | ⟨col, row, rfl, hundefined⟩ := exec_lcd_cases i hlcd s
  · simp only [busAllows, hhang] at hallows
    omega
  · obtain rfl : m = k := by simpa [hm] using hhang
    rw [hexec, lineOf_scriptOf hk, regsAt_scriptOf hlcd]
  · exact absurd ((rowUndefined_iff hrows row).1 hundefined) hrow

/-! ### The raw word -/

/-- Bits shifted in move the word up by their number. -/
theorem getLsbD_shiftIn_of_add {w : BitVec 16} {bits : List Bool} {j : Nat} (h : bits.length + j < 16) :
    (shiftIn w bits).getLsbD (bits.length + j) = w.getLsbD j := by
  induction bits generalizing w j with
  | nil => simp [shiftIn]
  | cons b bits ih =>
    rw [List.length_cons] at h
    have hbit : (orSample (shiftRaw w) b).getLsbD (j + 1) = w.getLsbD j := by
      have hj : j + 1 < 16 := by omega
      cases b <;> simp [orSample, shiftRaw, hj, BitVec.getLsbD_shiftLeft, -BitVec.getLsbD_eq_getElem]
    rw [List.length_cons, show bits.length + 1 + j = bits.length + (j + 1) by omega, ← hbit]
    exact ih (by omega)

/-- The first of the bits shifted in is the highest. -/
theorem getElem?_eq_getLsbD_shiftIn (w : BitVec 16) {bits : List Bool} {k : Nat} (hk : k < bits.length)
    (h : bits.length ≤ 16) : bits[k]? = some ((shiftIn w bits).getLsbD (bits.length - 1 - k)) := by
  induction bits generalizing w k with
  | nil => exact absurd hk (Nat.not_lt_zero k)
  | cons b bits ih =>
    rw [List.length_cons] at hk h
    cases k with
    | zero =>
      have hfirst : (shiftIn w (b :: bits)).getLsbD bits.length = (orSample (shiftRaw w) b).getLsbD 0 :=
        getLsbD_shiftIn_of_add (j := 0) h
      have hbit : (orSample (shiftRaw w) b).getLsbD 0 = b := by cases b <;> simp [orSample, shiftRaw]
      simp only [List.getElem?_cons_zero, List.length_cons, Nat.add_sub_cancel, Nat.sub_zero, hfirst, hbit]
    | succ k =>
      rw [List.getElem?_cons_succ, ih (orSample (shiftRaw w) b) (by omega) (by omega), List.length_cons,
        show bits.length + 1 - 1 - (k + 1) = bits.length - 1 - k by omega]
      rfl

/-- Settles O20: the read shifts its sixteen samples into a cleared register. -/
theorem rawWordIsMsbFirst : Obligations.RawWordIsMsbFirst := by
  intro s
  have hlength : (readBits s).length = 16 := length_tcSamples ..
  refine ⟨hlength, _, execTcRead_next s, fun k hk => ?_⟩
  rw [getElem?_eq_getLsbD_shiftIn 0 (hlength ▸ hk) hlength.le, hlength, shiftIn_zero]

/-! ### Waiting for a whole command -/

theorem takeB_of_short {opc : Byte} {mk : Byte → Instr} {bs : List Byte} (h : bs.length < 1) :
    takeB opc mk bs = .error (.truncated opc) := by
  obtain rfl := List.length_eq_zero_iff.1 (Nat.lt_one_iff.1 h)
  rfl

theorem takeCR_of_short {opc : Byte} {mk : Byte → Byte → Instr} {bs : List Byte} (h : bs.length < 2) :
    takeCR opc mk bs = .error (.truncated opc) := by
  match bs, h with
  | [], _ | [_], _ => rfl

theorem takeN_of_short {opc : Byte} {mk : F64 → Instr} {bs : List Byte} (h : bs.length < 8) :
    takeN opc mk bs = .error (.truncated opc) := by
  obtain ⟨v, rest, rfl, -⟩ | ⟨-, herror⟩ := takeN_cases opc mk bs
  · rw [List.length_append, leBytes_length] at h
    omega
  · exact herror

theorem takeNN_of_short {opc : Byte} {mk : F64 → F64 → Instr} {bs : List Byte} (h : bs.length < 16) :
    takeNN opc mk bs = .error (.truncated opc) := by
  obtain ⟨a, c, rest, rfl, -⟩ | ⟨-, herror⟩ := takeNN_cases opc mk bs
  · simp only [List.length_append, leBytes_length] at h
    omega
  · exact herror

/-- Bytes fewer than the opcode's format asks for are no command yet (30_encoding.md R78). -/
theorem decode_of_short {opc : Byte} {bs : List Byte} (h : bs.length + 1 < (formatOf opc).length) :
    decode (opc :: bs) = .error (.truncated opc) := by
  unfold formatOf at h
  split at h
  · next hopc => obtain rfl | rfl := hopc <;> exact takeB_of_short (Nat.lt_of_succ_lt_succ h)
  split at h
  · next hopc => subst hopc; exact takeCR_of_short (Nat.lt_of_succ_lt_succ h)
  split at h
  · next hopc => obtain rfl | rfl := hopc <;> exact takeN_of_short (Nat.lt_of_succ_lt_succ h)
  split at h
  · next hopc => subst hopc; exact takeNN_of_short (Nat.lt_of_succ_lt_succ h)
  · exact absurd (Nat.lt_of_succ_lt_succ h) (Nat.not_lt_zero _)

/-- Between commands, with no refusal and no reset request, a step waits while the port holds no command. -/
theorem step_of_decode_error {s : State} {e : DecodeError} (hrefused : s.refused = false)
    (hreset : s.env.resetReq = false) (hub : s.ub = false) (hseq : s.seq = .ready)
    (h : decode s.env.port = .error e) : step s = .next s := by
  simp [step, hrefused, hreset, hub, hseq, fetch, h]

/-- Settles O7: neither an empty port nor a command cut short decodes. -/
theorem stepWaitsForAWholeCommand : Obligations.StepWaitsForAWholeCommand := by
  intro s hrefused hreset hub hseq hport
  have hdecode : ∃ e, decode s.env.port = .error e := by
    obtain hempty | ⟨opc, bs, hbytes, hshort⟩ := hport
    · exact ⟨.empty, by rw [hempty]; rfl⟩
    · exact ⟨.truncated opc, hbytes ▸ decode_of_short hshort⟩
  obtain ⟨e, he⟩ := hdecode
  exact step_of_decode_error hrefused hreset hub hseq he

end Sys2Proof.Machine

/-! PROOFS. The statements of 30_encoding.md: the decoder and the encoder, the temperature of a raw word, the response
of a command, and `PRINT`. -/

namespace Sys2Proof

/-! ### The decoder -/

/-- What format `B` reads: one byte, or it asks for more. -/
theorem takeB_cases (opc : Byte) (mk : Byte → Instr) (bs : List Byte) :
    (∃ b rest, bs = b :: rest ∧ takeB opc mk bs = .ok (mk b, rest)) ∨
    (bs.length < 1 ∧ takeB opc mk bs = .error (.truncated opc)) := by
  cases bs with
  | nil => exact .inr ⟨Nat.zero_lt_one, rfl⟩
  | cons b rest => exact .inl ⟨b, rest, rfl, rfl⟩

/-- What format `CR` reads: two bytes, or it asks for more. -/
theorem takeCR_cases (opc : Byte) (mk : Byte → Byte → Instr) (bs : List Byte) :
    (∃ col row rest, bs = col :: row :: rest ∧ takeCR opc mk bs = .ok (mk col row, rest)) ∨
    (bs.length < 2 ∧ takeCR opc mk bs = .error (.truncated opc)) := by
  match bs with
  | [] => exact .inr ⟨Nat.zero_lt_two, rfl⟩
  | [_] => exact .inr ⟨Nat.one_lt_two, rfl⟩
  | col :: row :: rest => exact .inl ⟨col, row, rest, rfl, rfl⟩

theorem wellFormed_reserved {opc : Byte} : WellFormed (.reserved opc) = true ↔ opc ∉ definedOpcodes := by
  simp [WellFormed]

/-- An opcode outside the map is a command of one byte, whatever follows (30_encoding.md R76). -/
theorem decode_of_reserved {opc : Byte} (h : opc ∉ definedOpcodes) (bs : List Byte) :
    decode (opc :: bs) = .ok (.reserved opc, bs) := by
  simp only [decode]
  split
  case h_20 => rfl
  all_goals
    next hopc =>
      have hbits : opc = BitVec.ofNat 8 opc.toNat := by simp
      rw [hbits, hopc] at h
      exact absurd (by decide) h

/-- What the decoder can make of an opcode and the bytes behind it. -/
inductive Reading (opc : Byte) (bs : List Byte) : Prop where
  /-- The bytes begin with those of a well-formed command, which is answered with the rest. -/
  | command (i : Instr) (rest : List Byte) (hwf : WellFormed i = true) (hbytes : encode i ++ rest = opc :: bs)
      (hdecode : decode (opc :: bs) = .ok (i, rest))
  /-- The opcode's format asks for more bytes. -/
  | short (hlen : bs.length + 1 < (formatOf opc).length) (hdecode : decode (opc :: bs) = .error (.truncated opc))

/-- The decoder answers the command whose bytes stand first, or it asks for more because the opcode's format has more:
the opcode map of 30_encoding.md R64, row by row. -/
theorem decode_reading (opc : Byte) (bs : List Byte) : Reading opc bs := by
  by_cases h : opc ∈ definedOpcodes
  · simp only [definedOpcodes, List.mem_cons, List.not_mem_nil, or_false] at h
    obtain rfl | rfl | rfl | rfl | rfl | rfl | rfl | rfl | rfl | rfl | rfl | rfl | rfl | rfl | rfl | rfl | rfl |
      rfl | rfl := h
    · exact .command .lcdInit bs rfl rfl rfl
    · obtain ⟨b, rest, rfl, hread⟩ | ⟨hshort, hread⟩ := takeB_cases 0x11 .lcdCmd bs
      · exact .command (.lcdCmd b) rest rfl rfl hread
      · exact .short (Nat.succ_lt_succ hshort) hread
    · obtain ⟨b, rest, rfl, hread⟩ | ⟨hshort, hread⟩ := takeB_cases 0x12 .lcdData bs
      · exact .command (.lcdData b) rest rfl rfl hread
      · exact .short (Nat.succ_lt_succ hshort) hread
    · exact .command .lcdClear bs rfl rfl rfl
    · exact .command .lcdHome bs rfl rfl rfl
    · obtain ⟨col, row, rest, rfl, hread⟩ | ⟨hshort, hread⟩ := takeCR_cases 0x15 .lcdSetCursor bs
      · exact .command (.lcdSetCursor col row) rest rfl rfl hread
      · exact .short (Nat.succ_lt_succ hshort) hread
    · exact .command .lcdDisplayOn bs rfl rfl rfl
    · exact .command .lcdDisplayOff bs rfl rfl rfl
    · exact .command .lcdCursorOn bs rfl rfl rfl
    · exact .command .lcdCursorOff bs rfl rfl rfl
    · exact .command .lcdBlinkOn bs rfl rfl rfl
    · exact .command .lcdBlinkOff bs rfl rfl rfl
    · exact .command .lcdBacklightOn bs rfl rfl rfl
    · exact .command .lcdBacklightOff bs rfl rfl rfl
    · exact .command .tcRead bs rfl rfl rfl
    · exact .command .ambRead bs rfl rfl rfl
    · obtain ⟨v, rest, rfl, hread⟩ | ⟨hshort, hread⟩ := takeN_cases 0x40 .filtPushTc bs
      · exact .command (.filtPushTc v) rest rfl rfl hread
      · exact .short (Nat.succ_lt_succ hshort) hread
    · obtain ⟨v, rest, rfl, hread⟩ | ⟨hshort, hread⟩ := takeN_cases 0x41 .filtPushAmb bs
      · exact .command (.filtPushAmb v) rest rfl rfl hread
      · exact .short (Nat.succ_lt_succ hshort) hread
    · obtain ⟨tc, amb, rest, rfl, hread⟩ | ⟨hshort, hread⟩ := takeNN_cases 0x50 .compensate bs
      · exact .command (.compensate tc amb) rest rfl rfl hread
      · exact .short (Nat.succ_lt_succ hshort) hread
  · exact .command (.reserved opc) bs (wellFormed_reserved.2 h) rfl (decode_of_reserved h bs)

/-- The bytes of a well-formed command are as many as its opcode's format has (30_encoding.md R78). -/
theorem length_encode {i : Instr} (h : WellFormed i = true) :
    (encode i).length = (formatOf (opcodeOf i)).length := by
  cases i with
  | reserved opc => exact (Laws.CommandLength.reserved opc h).1
  | _ => rfl

/-- Settles O1: each opcode selects its format's reader, which reads back the operands the encoder wrote; an opcode
outside the map selects none. -/
theorem decodeOfEncodeIsTheCommand : Obligations.DecodeOfEncodeIsTheCommand := by
  intro i rest h
  cases i with
  | filtPushTc v => exact takeN_leBytes 0x40 .filtPushTc v rest
  | filtPushAmb v => exact takeN_leBytes 0x41 .filtPushAmb v rest
  | compensate tc amb => exact takeNN_leBytes 0x50 .compensate tc amb rest
  | reserved opc => exact decode_of_reserved (wellFormed_reserved.1 h) rest
  | _ => rfl

/-- Settles O2: the bytes that decode are those of the command the decoder answers. -/
theorem encodeOfDecodeIsTheBytes : Obligations.EncodeOfDecodeIsTheBytes := by
  intro bs i rest h
  cases bs with
  | nil => cases h
  | cons opc bs =>
    obtain ⟨i', rest', hwf, hbytes, hdecode⟩ | ⟨-, hdecode⟩ := decode_reading opc bs
    · cases hdecode.symm.trans h
      exact ⟨hwf, hbytes⟩
    · cases hdecode.symm.trans h

/-- Settles O3: with enough bytes the decoder answers a command with the opcode, whose encoding has the length of the
format, so what it leaves is what stands behind those bytes. -/
theorem opcodeFixesTheLength : Obligations.OpcodeFixesTheLength := by
  refine ⟨fun opc bs henough => ?_, fun opc h => ?_, rfl⟩
  · obtain ⟨i, rest, hwf, hbytes, hdecode⟩ | ⟨hshort, -⟩ := decode_reading opc bs
    · obtain ⟨rfl, rfl⟩ : opcodeOf i = opc ∧ operandBytes i ++ rest = bs := List.cons.inj hbytes
      refine ⟨i, ?_⟩
      rw [hdecode, ← length_encode hwf]
      simp [encode]
    · omega
  · exact (Laws.CommandLength.reserved opc (wellFormed_reserved.2 h)).1.symm

/-- Settles O4: the decoder is run on the nine words. -/
theorem specWordsDecode : Obligations.SpecWordsDecode :=
  ⟨rfl, rfl, rfl, rfl, rfl, rfl, rfl, rfl, rfl⟩

/-- Settles O5: the high nibbles of the nineteen opcodes are evaluated. -/
theorem opcodeHighNibbleNamesTheSubUnit : Obligations.OpcodeHighNibbleNamesTheSubUnit := rfl

/-! ### The temperature of a raw word -/

/-- A whole multiple of a power of two, with at most 53 bits before it, has a `Num`. -/
theorem Num64.exists_ofUnits?_eq {m k : Nat} (hm : m < 2 ^ 53) (hk : k + 1 < 2047) :
    ∃ n, Num64.ofUnits? ((m * 2 ^ k : Nat) : Int) = some n := by
  simp only [Num64.ofUnits?, Int.natAbs_natCast]
  split
  · exact ⟨_, rfl⟩
  · next hlarge =>
    have hm0 : m ≠ 0 := by
      rintro rfl
      simp at hlarge
    have hne : m * 2 ^ k ≠ 0 := Nat.mul_ne_zero hm0 (Nat.two_pow_pos k).ne'
    have hlog : (m * 2 ^ k).log2 < 53 + k := by
      rw [Nat.log2_lt hne, Nat.pow_add]
      exact Nat.mul_lt_mul_of_pos_right hm (Nat.two_pow_pos k)
    have hshift : (m * 2 ^ k).log2 - 52 ≤ k := by omega
    have hmod : m * 2 ^ k % 2 ^ ((m * 2 ^ k).log2 - 52) = 0 :=
      Nat.mod_eq_zero_of_dvd ((Nat.pow_dvd_pow 2 hshift).mul_left m)
    exact ⟨_, dif_pos ⟨by omega, hmod⟩⟩

namespace Machine

/-- A count of a raw word is a whole number of units: `1/4` is `2 ^ 1072` of them. -/
theorem tcNum_toQ {count : Nat} (h : count < 2 ^ 53) : (tcNum count).toQ = (count : Rat) / 4 := by
  have hunits : unitsPerOne = 4 * 2 ^ 1072 := by
    rw [unitsPerOne, show 1074 = 2 + 1072 from rfl, Nat.pow_add]
  obtain ⟨n, hn⟩ := Num64.exists_ofUnits?_eq (k := 1072) h (by omega)
  have hfound : Num64.ofQ? ((count : Rat) * tcLsbC) = some n := by
    refine Num64.ofQ?_eq_some_iff.2 ⟨_, ?_, hn⟩
    rw [hunits, Int.cast_natCast, Nat.cast_mul, Nat.cast_mul, Nat.cast_ofNat, tcLsbC]
    ring
  rw [tcNum, hfound, Option.getD_some, Num64.toQ_of_ofQ? hfound, tcLsbC, mul_one_div]

/-- `TCOUNT` drops the three low bits (30_encoding.md R74). -/
theorem tcCount_eq (w : BitVec 16) : tcCount w = w.toNat / 8 := by
  rw [tcCount, BitVec.toNat_ushiftRight, Nat.shiftRight_eq_div_pow]
  rfl

/-- Settles O22: the count has 13 bits, and a quarter is a whole number of the format's units. -/
theorem temperatureIsExact : Obligations.TemperatureIsExact := by
  intro w
  have hle : w.toNat / 8 ≤ 8191 := by omega
  have hq : (tcTemperature w).toQ = ((w.toNat / 8 : Nat) : Rat) / 4 := by
    rw [tcTemperature, tcCount_eq, tcNum_toQ (by omega)]
  refine ⟨hq, hq ▸ by positivity, ?_⟩
  rw [hq]
  gcongr
  exact_mod_cast hle

/-! ### The response of a command -/

/-- A reserved opcode responds ILLEGAL_OPCODE and does nothing else (30_encoding.md R76). -/
theorem exec_reserved (opc : Byte) (s : State) :
    exec (.reserved opc) s = .next (quietDone s s.winTc s.winAmb 0x80 []) := rfl

/-- Settles O35: a reserved opcode decodes to itself alone, and the step runs it. -/
theorem reservedOpcodesRespondIllegal : Obligations.ReservedOpcodesRespondIllegal := by
  refine ⟨by decide +kernel, fun s opc => exec_reserved opc s, fun s opc rest hopc hport hrefused hreset hub hseq => ?_⟩
  rw [stepRunsTheDecodedCommand s _ rest hrefused hreset hub hseq (hport ▸ decode_of_reserved hopc rest),
    exec_reserved, quietDone, ← hseq]

/-- Bus writes and waits hold no response. -/
theorem responses_of_onlyBus {evs : List Event} (h : onlyBus evs = true) : responses evs = [] := by
  induction evs with
  | nil => rfl
  | cons e evs ih =>
    cases e with
    | busWrite a b => exact ih h
    | wait d => exact ih h
    | _ => cases h

/-- The pins and waits of a read hold no response. -/
theorem responses_tcEvents (c : Config) (bits : List Bool) : responses (tcEvents c bits) = [] := by
  have hclocks : responses (bits.flatMap (clockEvents c)) = [] := by
    induction bits with
    | nil => rfl
    | cons b bits ih => simp [clockEvents, responses, ih]
  simp [tcEvents, responses_append, hclocks, responses]

/-- The result of a read is OK, or SENSOR_FAULT without payload (43_thermocouple.md R115). -/
theorem tcStatus_cases (w : BitVec 16) :
    tcStatus w = 0x00 ∨ (tcStatus w = 0x01 ∧ tcPayload w = []) := by
  cases h : sensorFault w
  · exact .inl (by simp [tcStatus, h, statusOk])
  · exact .inr ⟨by simp [tcStatus, h, statusSensorFault], by simp [tcPayload, h]⟩

/-- The events of an LCD command hold one response, OK, after all the others when it completes, and none when a bus
write never returns or the row is undefined. -/
theorem exec_lcd_response {i : Instr} (hlcd : isLcd i = true) {s t : State} (h : exec i s = .next t) :
    ∃ evs, responses evs = [] ∧
      ((t.seq = .ready ∧ t.trace = s.trace ++ evs ++ [.respond 0x00 []]) ∨
        (t.seq ≠ .ready ∧ t.trace = s.trace ++ evs)) := by
  have hbus := onlyBus_script s i
  obtain ⟨-, hdone⟩ | ⟨m, -, -, hhung⟩ | ⟨col, row, rfl, hrow⟩ := exec_lcd_cases i hlcd s
  · rw [hdone] at h
    cases h
    exact ⟨_, responses_of_onlyBus hbus, .inl ⟨rfl, rfl⟩⟩
  · rw [hhung] at h
    cases h
    exact ⟨_, responses_of_onlyBus (onlyBus_prefix (upToWrite_prefix _ m) hbus), .inr ⟨nofun, rfl⟩⟩
  · rw [exec_undefinedRow s col row hrow] at h
    cases h
    exact ⟨[], rfl, .inr ⟨nofun, (List.append_nil _).symm⟩⟩

/-- Settles O48: each command's events before its response hold none; its status is the one its rule ends in. -/
theorem exactlyOneResponse : Obligations.ExactlyOneResponse := by
  intro i s t h
  have hquiet : ∀ e, s.trace ++ [e] = s.trace ++ [] ++ [e] := fun e => by rw [List.append_nil]
  cases i with
  | tcRead =>
    rw [exec, execTcRead_next] at h
    cases h
    refine ⟨_, responses_tcEvents _ _, .inl ⟨rfl, _, _, rfl, ?_⟩⟩
    obtain hok | ⟨hfault, hpayload⟩ := tcStatus_cases (wordOfBits (readBits s))
    · exact .inl hok
    · exact .inr (.inl ⟨hfault, hpayload, rfl⟩)
  | ambRead =>
    rw [exec, execAmbRead_next] at h
    cases h
    exact ⟨[.adcSample _], rfl, .inl ⟨rfl, _, _, List.append_cons .., .inl rfl⟩⟩
  | filtPushTc v =>
    obtain ⟨-, hexec⟩ | ⟨-, hexec⟩ := execFiltPushTc_next v s <;> rw [exec, hexec] at h <;> cases h
    · exact ⟨[], rfl, .inl ⟨rfl, _, _, hquiet _, .inl rfl⟩⟩
    · exact ⟨[], rfl, .inl ⟨rfl, _, _, hquiet _, .inr (.inr (.inr ⟨rfl, rfl, rfl, .inl ⟨v, rfl⟩⟩))⟩⟩
  | filtPushAmb v =>
    obtain ⟨-, hexec⟩ | ⟨-, hexec⟩ := execFiltPushAmb_next v s <;> rw [exec, hexec] at h <;> cases h
    · exact ⟨[], rfl, .inl ⟨rfl, _, _, hquiet _, .inl rfl⟩⟩
    · exact ⟨[], rfl, .inl ⟨rfl, _, _, hquiet _, .inr (.inr (.inr ⟨rfl, rfl, rfl, .inr (.inl ⟨v, rfl⟩)⟩))⟩⟩
  | compensate tc amb =>
    obtain ⟨-, hexec⟩ | ⟨-, hexec⟩ := execCompensate_next tc amb s <;> rw [exec, hexec] at h <;> cases h
    · exact ⟨[], rfl, .inl ⟨rfl, _, _, hquiet _, .inl rfl⟩⟩
    · exact ⟨[], rfl, .inl ⟨rfl, _, _, hquiet _, .inr (.inr (.inr ⟨rfl, rfl, rfl, .inr (.inr ⟨tc, amb, rfl⟩)⟩))⟩⟩
  | reserved opc =>
    rw [exec, execReserved_next] at h
    cases h
    exact ⟨[], rfl, .inl ⟨rfl, _, _, hquiet _, .inr (.inr (.inl ⟨rfl, rfl, rfl, opc, rfl⟩))⟩⟩
  | _ =>
    obtain ⟨evs, hnone, ⟨hready, htrace⟩ | ⟨hstuck, htrace⟩⟩ := exec_lcd_response rfl h
    · exact ⟨evs, hnone, .inl ⟨hready, _, _, htrace, .inl rfl⟩⟩
    · exact ⟨evs, hnone, .inr ⟨hstuck, htrace, rfl⟩⟩

/-! ### `PRINT` -/

/-- Characters of at most one byte expand to one `LCD_DATA` each. -/
theorem expandPrint_of_le {text : List Char} (h : ∀ c ∈ text, c.toNat ≤ 0xFF) :
    expandPrint text = some (text.map fun c => .lcdData (BitVec.ofNat 8 c.toNat)) := by
  induction text with
  | nil => rfl
  | cons c text ih =>
    obtain ⟨hc, htext⟩ := List.forall_mem_cons.1 h
    rw [expandPrint, if_pos hc, ih htext]
    rfl

/-- A character past one byte rejects the text. -/
theorem expandPrint_of_gt {text : List Char} (h : ∃ c ∈ text, 0xFF < c.toNat) : expandPrint text = none := by
  induction text with
  | nil => simp at h
  | cons c text ih =>
    rw [expandPrint]
    split
    · next hc =>
      obtain hgt | htext := (List.exists_mem_cons_iff ..).1 h
      · omega
      · rw [ih htext]
        rfl
    · rfl

/-- The text of a quoted operand is all that stands between its outer double quotes. -/
theorem quotedText_quoted (text : List Char) : quotedText (' ' :: '"' :: (text ++ ['"'])) = some text := by
  simp [quotedText, trimBlanks, skipBlanks]

/-- A `PRINT` line stands for the expansion of its text. -/
theorem assemble_print (text : List Char) :
    assemble (['P', 'R', 'I', 'N', 'T', ' ', '"'] ++ text ++ ['"']) = expandPrint text := by
  have hquoted := quotedText_quoted text
  simp [assemble, skipBlanks, hquoted]

/-- Settles O52: the line's text is expanded character by character. -/
theorem printIsOneDataByteEach : Obligations.PrintIsOneDataByteEach := by
  intro text
  rw [assemble_print]
  exact ⟨expandPrint_of_le, expandPrint_of_gt⟩

end Machine

end Sys2Proof

/-! PROOFS. The statements of 40_lcd_transactions.md: the byte transfer, and the two commands that send one byte. -/

namespace Sys2Proof.Machine

/-- An LCD command whose bus writes all complete, its row defined, plays its whole script and responds OK. -/
theorem exec_lcd_done {i : Instr} (hlcd : isLcd i = true) {s : State}
    (hrow : ∀ col row, i = .lcdSetCursor col row → rowUndefined s.lcdRows row = false)
    (ha : busAllows (writeCount (scriptOf s i).events) s.env) :
    exec i s = .next (lcdDone s ((scriptOf s i).regsAfter s.lcdRegs).1 ((scriptOf s i).regsAfter s.lcdRegs).2
      (scriptOf s i).events) := by
  obtain ⟨-, hdone⟩ | ⟨m, hm, hlt, -⟩ | ⟨col, row, hi, hundefined⟩ := exec_lcd_cases i hlcd s
  · exact hdone
  · simp only [busAllows, hm] at ha
    omega
  · rw [hrow col row hi] at hundefined
    cases hundefined

/-- A byte transfer whose four writes complete emits its events, and does nothing else (40_lcd_transactions.md R83). -/
theorem byteTx_done (v : Byte) (rs : Bool) {s : State} (ha : busAllows 4 s.env) :
    byteTx v rs s = .go (s.sent (byteEvents s.cfg s.lcdAddr s.bl v rs) 4) := by
  rw [byteTx_play, play_allows (onlyBus_byte ..) (by rwa [writeCount_byte]), writeCount_byte]

/-- Settles O10: the transfer plays its events, which are two nibbles of two writes each. -/
theorem byteTransferIsFourWrites : Obligations.ByteTransferIsFourWrites := by
  intro s v rs ha
  exact ⟨_, byteTx_done v rs ha, rfl, rfl, waitSum_byte ..⟩

/-- A command whose script is one byte transfer, the display flags kept, sends that byte and responds OK. -/
theorem exec_oneByte {i : Instr} (hlcd : isLcd i = true) {s : State} {v : Byte} {rs : Bool}
    (hrow : ∀ col row, i = .lcdSetCursor col row → rowUndefined s.lcdRows row = false)
    (hscript : scriptOf s i = [(s.lcdRegs, byteEvents s.cfg s.lcdAddr s.bl v rs)]) (ha : busAllows 4 s.env) :
    exec i s = .next (lcdDone s s.bl s.dcf (byteEvents s.cfg s.lcdAddr s.bl v rs)) := by
  have hdone := exec_lcd_done hlcd hrow
  have hevents : (scriptOf s i).events = byteEvents s.cfg s.lcdAddr s.bl v rs := by
    rw [hscript]
    exact List.append_nil _
  rw [hevents, writeCount_byte, hscript] at hdone
  exact hdone ha

/-- Settles O11: the script of the command is one byte transfer with RS = 0. -/
theorem lcdCmdSendsACommandByte : Obligations.LcdCmdSendsACommandByte :=
  fun _ _ => exec_oneByte rfl nofun rfl

/-- Settles O12: the script of the command is one byte transfer with RS = 1. -/
theorem lcdDataSendsADataByte : Obligations.LcdDataSendsADataByte :=
  fun _ _ => exec_oneByte rfl nofun rfl

end Sys2Proof.Machine

/-! PROOFS. The statement of 41_lcd_init.md: the initialization sequence. -/

namespace Sys2Proof.Machine

/-- The lines of `LCD_INIT` are the states of 41_lcd_init.md R89, so their events are the sequence written out there. -/
theorem events_lcdInit (s : State) : (scriptOf s .lcdInit).events = initEvents s.cfg s.lcdAddr s.bl := by
  simp only [scriptOf, Script.events, initEvents, List.append_assoc, List.append_nil]
  rfl

/-- Four nibbles of two writes and four bytes of four (41_lcd_init.md R90). -/
theorem writeCount_initEvents (c : Config) (addr : BitVec 7) (bl : Bool) :
    writeCount (initEvents c addr bl) = 24 := by
  simp [initEvents, writeCount_append]

/-- Four nibbles of 51 us, four bytes of 102 us, and the delays of 5, 5, 1 and 2 ms (41_lcd_init.md R90). -/
theorem waitSum_initEvents (c : Config) (addr : BitVec 7) (bl : Bool) :
    waitSum (initEvents c addr bl) = 13612000 := by
  simp [initEvents, waitSum_append, waitSum]

/-- Settles O13: with 24 writes allowed the script plays whole, and the flags it ends with are those its line 5 wrote
(`initFlags`), the backlight kept. -/
theorem lcdInitRunsTheSequence : Obligations.LcdInitRunsTheSequence := by
  intro s ha
  have hdone := exec_lcd_done (i := .lcdInit) rfl (s := s) nofun
  have hflags : (scriptOf s .lcdInit).regsAfter s.lcdRegs = (s.bl, 0b100) := rfl
  rw [events_lcdInit, writeCount_initEvents, hflags] at hdone
  exact ⟨hdone ha, writeCount_initEvents .., waitSum_initEvents ..⟩

end Sys2Proof.Machine

/-! PROOFS. The statements of 42_lcd_operations.md: clear and home, the cursor address, the toggles, the backlight. -/

namespace Sys2Proof.Machine

/-- The flags a command's script ends with are those the statements name. -/
theorem regsAfter_scriptOf (s : State) (i : Instr) :
    (scriptOf s i).regsAfter s.lcdRegs = (backlightAfter i s.bl, flagsAfter i s.dcf) := by
  cases i <;> rfl

/-- An LCD command whose row is defined and whose script plays `evs` emits them and responds OK when their writes
complete, and leaves the flags the statements name. -/
theorem exec_lcd_plays {i : Instr} (hlcd : isLcd i = true) {s : State}
    (hrow : ∀ col row, i = .lcdSetCursor col row → rowUndefined s.lcdRows row = false) {evs : List Event}
    (hevents : (scriptOf s i).events = evs) (ha : busAllows (writeCount evs) s.env) :
    exec i s = .next (lcdDone s (backlightAfter i s.bl) (flagsAfter i s.dcf) evs) := by
  rw [exec_lcd_done hlcd hrow (by rwa [hevents]), regsAfter_scriptOf, hevents]

/-- Settles O14: the script of each command is a byte transfer of four writes and the delay of 2 ms. -/
theorem lcdClearAndHomeSendAndWait : Obligations.LcdClearAndHomeSendAndWait :=
  fun _ ha => ⟨exec_lcd_plays rfl (by nofun) rfl ha, exec_lcd_plays rfl (by nofun) rfl ha⟩

/-- Settles O15: a row below `s.lcd_rows` is within the offset table, so the script is one byte transfer of the
address command; a row at or past it fails the check of line 0. -/
theorem lcdSetCursorSendsTheAddress : Obligations.LcdSetCursorSendsTheAddress := by
  refine ⟨fun s col row ha hrows hrow => ?_, fun s col row hrow => ?_⟩
  · have hdefined : rowUndefined s.lcdRows row = false :=
      Bool.eq_false_iff.2 fun hu => Nat.not_le_of_lt hrow ((rowUndefined_iff hrows row).1 hu)
    refine exec_lcd_plays rfl ?_ (events_scriptOf hrows (Nat.not_le_of_lt hrow)) ha
    rintro _ _ ⟨⟩
    exact hdefined
  · have hundefined : rowUndefined s.lcdRows row = true := by simp [rowUndefined, hrow]
    rw [exec_undefinedRow s col row hundefined]
    cases s.ubInfo <;> rfl

/-- Settles O16: the script of a toggle writes its flag and then sends the display-control byte of all three. -/
theorem togglesWriteOneFlagAndResend : Obligations.TogglesWriteOneFlagAndResend := by
  intro s i hi ha
  cases i with
  | lcdDisplayOn | lcdDisplayOff | lcdCursorOn | lcdCursorOff | lcdBlinkOn | lcdBlinkOff =>
    exact exec_lcd_plays rfl (by nofun) (List.append_nil _) ha
  | _ => simp at hi

/-- The control byte of no nibble, RS and Enable low, is the backlight's mask or 0 (42_lcd_operations.md R107, R108). -/
theorem ctrl_backlight (c : Config) (bl : Bool) :
    ctrl c 0 false false bl = if bl then c.blMask else 0x00 := by
  cases bl <;> simp [ctrl]

/-- Settles O17: the script of each command writes the flag and then the control byte that holds the backlight bit
alone. -/
theorem backlightCommandsWriteOnce : Obligations.BacklightCommandsWriteOnce := by
  intro s ha
  have hwrite (on : Bool) : [Event.busWrite s.lcdAddr (ctrl s.cfg 0 false false on)] =
      [.busWrite s.lcdAddr (if on then s.cfg.blMask else 0x00)] := by rw [ctrl_backlight]
  exact ⟨exec_lcd_plays rfl (by nofun) (hwrite true) ha, exec_lcd_plays rfl (by nofun) (hwrite false) ha⟩

end Sys2Proof.Machine

/-! PROOFS. The statements of 43_thermocouple.md: the result of a read, and the fault bit. -/

namespace Sys2Proof.Machine

/-- Bit 2 of the raw word decides the response of a read: SENSOR_FAULT without payload, or OK with the temperature
(43_thermocouple.md R115, R116). -/
theorem tcResponse_eq (w : BitVec 16) :
    Event.respond (tcStatus w) (tcPayload w) =
      if w.getLsbD 2 then .respond 0x01 [] else .respond 0x00 (leBytes (tcTemperature w).toBits) := by
  have hbit : sensorFault w = w.getLsbD 2 := rfl
  cases h : w.getLsbD 2 <;> simp only [tcStatus, tcPayload, hbit, h] <;> rfl

/-- Sample `k` of a read is bit `15 - k` of its raw word (43_thermocouple.md R114). -/
theorem getElem?_readBits (s : State) {k : Nat} (hk : k < 16) :
    (readBits s)[k]? = some ((wordOfBits (readBits s)).getLsbD (15 - k)) := by
  have hlength : (readBits s).length = 16 := length_tcSamples ..
  rw [getElem?_eq_getLsbD_shiftIn 0 (hlength ▸ hk) hlength.le, hlength, shiftIn_zero]

/-- Settles O19: the read runs its sequence, and the temperature it responds with is the exact one. -/
theorem tcReadRunsTheSequence : Obligations.TcReadRunsTheSequence := by
  intro s
  obtain ⟨hexact, -, -⟩ := temperatureIsExact (wordOfBits (readBits s))
  refine ⟨tcTemperature (wordOfBits (readBits s)), hexact, ?_⟩
  rw [exec, execTcRead_next, tcResponse_eq]

/-- Settles O21: the fourteenth sample is bit 2 of the raw word, which alone decides the response. -/
theorem sensorFaultWhateverTheOtherBits : Obligations.SensorFaultWhateverTheOtherBits := by
  intro s hhigh
  have hbit : (wordOfBits (readBits s)).getLsbD 2 = true :=
    Option.some.inj ((getElem?_readBits s (by decide)).symm.trans hhigh)
  refine ⟨_, execTcRead_next s, ?_⟩
  rw [tcResponse_eq, if_pos hbit]

end Sys2Proof.Machine

/-! PROOFS. The statements of 44_ambient.md: the sample of a read, and the ambient temperature's exactness and range. -/

namespace Sys2Proof

/-- A zero denotes 0. -/
theorem Num64.toQ_of_isZero {n : Num64} (h : n.isZero = true) : n.toQ = 0 := by
  rw [← Num64.canon_toQ, Num64.canon, if_pos h, Num64.toQ_zero]

/-- Where the intermediates and the exact result are values of the format, a result is the exact one (00_scope.md
R18). -/
theorem realize_exact (free : FreeResult) {steps : List Rat} {q : Rat} (hsteps : ∀ x ∈ steps, ∃ n : Num64, n.toQ = x)
    (hq : ∃ n : Num64, n.toQ = q) : ∃ v, realize free steps q = .num v ∧ v.toQ = q := by
  obtain ⟨r, rfl⟩ := hq
  have hall : steps.all (fun x => (Num64.ofQ? x).isSome) = true := by
    refine List.all_eq_true.2 fun x hx => ?_
    obtain ⟨n, rfl⟩ := hsteps x hx
    rw [Num64.ofQ?_toQ, Option.isSome_some]
  refine ⟨if r.canon.isZero then Num64.zero free.zeroNeg else r.canon, ?_, ?_⟩
  · rw [realize, hall, Num64.ofQ?_toQ]
  · split
    · next hzero => rw [Num64.toQ_zero, ← Num64.canon_toQ, Num64.toQ_of_isZero hzero]
    · exact Num64.canon_toQ r

namespace Machine

/-! ### The sample -/

/-- The ADC draws a sample of the domain (44_ambient.md R123). -/
theorem Env.adcDraw_le (e : Env) (fullScale : Nat) : e.adcDraw fullScale ≤ fullScale := by
  have hfree : Config.freeAdc e.draws % (fullScale + 1) ≤ fullScale :=
    Nat.le_of_lt_succ (Nat.mod_lt _ (Nat.succ_pos _))
  unfold Env.adcDraw
  split
  · split
    · next hdomain => exact hdomain
    · exact hfree
  · exact hfree

/-- The next input of the ADC is the one it draws, where it lies in the domain. -/
theorem Env.adcDraw_of_cons {e : Env} {fullScale y : Nat} {ys : List Nat} (hin : e.adcIn = y :: ys)
    (hy : y ≤ fullScale) : e.adcDraw fullScale = y := by
  simp only [Env.adcDraw, hin, if_pos hy]

/-- Settles O23: the read draws one sample, which is of the domain, and responds with its temperature. -/
theorem ambReadTakesOneSample : Obligations.AmbReadTakesOneSample :=
  fun s => ⟨s.env.adcDraw s.cfg.fullScale, s.env.adcDraw_le _, fun _ _ hin hy => Env.adcDraw_of_cons hin hy,
    execAmbRead_next s⟩

/-! ### The temperature -/

/-- The intermediates of the conversion and its result are not negative (44_ambient.md R122). -/
theorem ambient_nonneg {vref : Rat} (hvref : 0 < vref) (fullScale x : Nat) :
    ∀ q ∈ ambExact vref fullScale x :: ambSteps vref fullScale x, 0 ≤ q := by
  have hlsb : 0 ≤ vref / (fullScale : Rat) := div_nonneg hvref.le (Nat.cast_nonneg _)
  have hvolt : 0 ≤ (x : Rat) * (vref / (fullScale : Rat)) := mul_nonneg (Nat.cast_nonneg _) hlsb
  have hamb : 0 ≤ ambExact vref fullScale x := mul_nonneg hvolt (by norm_num [ambGain])
  exact List.forall_mem_cons.2 ⟨hamb, List.forall_mem_cons.2 ⟨hlsb, List.forall_mem_singleton.2 hvolt⟩⟩

/-- A sample of the domain gives at most `100 * VREF` exactly: the voltage is at most `VREF` (44_ambient.md R121). -/
theorem ambExact_le {vref : Rat} (hvref : 0 < vref) {fullScale x : Nat} (hfull : 0 < fullScale) (hx : x ≤ fullScale) :
    ambExact vref fullScale x ≤ 100 * vref := by
  have hvolt : (x : Rat) * (vref / (fullScale : Rat)) ≤ vref :=
    calc (x : Rat) * (vref / (fullScale : Rat)) ≤ (fullScale : Rat) * (vref / (fullScale : Rat)) :=
          mul_le_mul_of_nonneg_right (Nat.cast_le.2 hx) (div_nonneg hvref.le (Nat.cast_nonneg _))
      _ = vref := mul_div_cancel₀ _ (Nat.cast_ne_zero.2 hfull.ne')
  rw [ambExact, ambGain]
  linarith

/-- The sample `FULL_SCALE` gives `100 * VREF` exactly (44_ambient.md R121). -/
theorem ambExact_fullScale (vref : Rat) {fullScale : Nat} (hfull : 0 < fullScale) :
    ambExact vref fullScale fullScale = 100 * vref := by
  rw [ambExact, ambGain, mul_div_cancel₀ _ (Nat.cast_ne_zero.2 hfull.ne'), mul_comm]

/-- Where the intermediates and the result are values of the format, `numerics.amb` is the exact result. -/
theorem numericsAmb_exact {vref : Rat} {fullScale x : Nat} {q1 q2 q3 : Num64} (h1 : q1.toQ = vref / (fullScale : Rat))
    (h2 : q2.toQ = (x : Rat) * q1.toQ) (h3 : q3.toQ = q2.toQ * 100) :
    ∃ v : Num64, numericsAmb vref fullScale x = .num v ∧ v.toQ = ambExact vref fullScale x := by
  by_cases hx : x = 0
  · subst hx
    exact ⟨_, numericsAmb_zero vref fullScale, by simp [ambExact]⟩
  · rw [h1] at h2
    rw [h2] at h3
    rw [numericsAmb_of_ne_zero vref fullScale hx]
    exact realize_exact _ (List.forall_mem_cons.2 ⟨⟨q1, h1⟩, List.forall_mem_singleton.2 ⟨q2, h2⟩⟩) ⟨q3, h3⟩

/-- An infinite ambient temperature is positive, and an intermediate or the exact result lies past the finite range:
none of them is negative, so none overflows to the negative side. -/
theorem numericsAmb_eq_inf {vref : Rat} (hvref : 0 < vref) {fullScale x : Nat} {neg : Bool}
    (h : numericsAmb vref fullScale x = .inf neg) :
    neg = false ∧ ∃ q ∈ ambExact vref fullScale x :: ambSteps vref fullScale x, maxFinite < q := by
  have hx : x ≠ 0 := by
    rintro rfl
    cases (numericsAmb_zero vref fullScale).symm.trans h
  rw [numericsAmb_of_ne_zero vref fullScale hx] at h
  obtain ⟨q, hq, hout⟩ := realize_eq_inf h
  cases neg with
  | false => exact ⟨rfl, q, hq, hout⟩
  | true =>
    have hnonneg : 0 ≤ q := ambient_nonneg hvref fullScale x q hq
    have hneg : q < -maxFinite := hout
    linarith [maxFinite_pos]

/-- Settles O24: the exact result is the one found for the order of R122. -/
theorem ambientIsExactWhenRepresentable : Obligations.AmbientIsExactWhenRepresentable :=
  fun _ _ _ _ _ _ _ _ => numericsAmb_exact

/-- Settles O25: the exact result is a sample's share of `100 * VREF`, the sample 0 gives a zero, and an overflow is a
positive one. -/
theorem ambientStaysInItsRange : Obligations.AmbientStaysInItsRange := by
  intro vref fullScale x hvref hfull hx
  refine ⟨fun q1 q2 q3 h1 h2 h3 => ?exact, ?zero, ?overflow⟩
  case exact =>
    obtain ⟨v, hv, hexact⟩ := numericsAmb_exact h1 h2 h3
    refine ⟨v, hv, ?_, ?_, ?_⟩
    · exact hexact ▸ ambient_nonneg hvref fullScale x _ List.mem_cons_self
    · exact hexact ▸ ambExact_le hvref hfull hx
    · rintro rfl
      exact hexact.trans (ambExact_fullScale vref hfull)
  case zero =>
    rintro rfl
    exact ⟨_, numericsAmb_zero vref fullScale, Num64.toQ_zero _⟩
  case overflow =>
    cases h : numericsAmb vref fullScale x with
    | num v => exact .inl ⟨v, rfl⟩
    | inf neg =>
      obtain ⟨rfl, q, hq, hpast⟩ := numericsAmb_eq_inf hvref h
      simp only [ambSteps, List.mem_cons, List.not_mem_nil, or_false] at hq
      obtain rfl | rfl | rfl := hq
      · exact .inr ⟨rfl, .inr (.inr hpast)⟩
      · exact .inr ⟨rfl, .inl hpast⟩
      · exact .inr ⟨rfl, .inr (.inl hpast)⟩

end Machine

end Sys2Proof

/-! PROOFS. The statements of 45_filter.md: what a push does to its window and responds with, for both channels, and
the exactness of the mean. -/

namespace Sys2Proof.Machine

/-! ### The mean -/

/-- Where the running sums and the mean are values of the format, `numerics.mean` is the exact mean: every
intermediate of its evaluation order is a running sum (45_filter.md R127). -/
theorem numericsMean_exact {w : List Num64} {m : Num64}
    (hsums : ∀ k, k ≤ w.length → ∃ a : Num64, a.toQ = ((w.take k).map Num64.toQ).sum)
    (hmean : m.toQ = (w.map Num64.toQ).sum / (w.length : Rat)) :
    ∃ v : Num64, numericsMean w = .num v ∧ v.toQ = (w.map Num64.toQ).sum / (w.length : Rat) := by
  rw [← meanExact_eq] at hmean ⊢
  refine realize_exact _ (fun q hq => ?_) ⟨m, hmean⟩
  obtain ⟨k, hk, rfl⟩ := mem_runningSums hq
  rw [zero_add]
  exact hsums k hk

/-- The mean of one sample denotes the sample (45_filter.md R129). -/
theorem numericsMean_singleton (x : Num64) : ∃ y : Num64, numericsMean [x] = .num y ∧ y.toQ = x.toQ := by
  have hmean : ([x].map Num64.toQ).sum / (([x].length : Nat) : Rat) = x.toQ := by simp
  have hsums : ∀ k, k ≤ [x].length → ∃ a : Num64, a.toQ = (([x].take k).map Num64.toQ).sum
    | 0, _ => ⟨Num64.zero false, by simp⟩
    | k + 1, _ => ⟨x, by simp⟩
  obtain ⟨y, hy, hexact⟩ := numericsMean_exact hsums hmean.symm
  exact ⟨y, hy, hexact.trans hmean⟩

/-! ### The window -/

/-- The first push of an empty window leaves the one sample. -/
@[simp] theorem pushWindow_nil (cap : Nat) (v : Num64) : pushWindow cap [] v = [v.canon] := by
  simp [pushWindow]

/-- A push on the last `cap` samples of a history gives the last `cap` samples of the longer one: the window is full
exactly when the history holds `cap` samples or more, and then its oldest sample is the one that drops out. -/
theorem pushWindow_rtake {cap : Nat} (hcap : 1 ≤ cap) (history : List Num64) (v : Num64) :
    pushWindow cap (history.rtake cap) v = (history ++ [v.canon]).rtake cap := by
  simp only [pushWindow, List.rtake, List.length_drop, List.length_append, List.length_singleton]
  split
  · next hfull =>
    have hnext : history.length - cap + 1 = history.length + 1 - cap := by omega
    rw [List.drop_drop, hnext, List.drop_append_of_le_length (by omega)]
  · next hroom =>
    have hshort : history.length + 1 ≤ cap := by omega
    rw [Nat.sub_eq_zero_of_le hshort, Nat.sub_eq_zero_of_le (Nat.le_of_succ_le hshort), List.drop_zero, List.drop_zero]

/-- Pushes one after another keep the last `cap` samples of the history. -/
theorem foldl_pushWindow {cap : Nat} (hcap : 1 ≤ cap) (history xs : List Num64) :
    xs.foldl (pushWindow cap) (history.rtake cap) = (history ++ xs.map Num64.canon).rtake cap := by
  induction xs generalizing history with
  | nil => simp
  | cons x xs ih =>
    rw [List.foldl_cons, pushWindow_rtake hcap, ih, List.map_cons, List.append_assoc, List.singleton_append]

/-! ### The two channels -/

/-- A channel of the filter (45_filter.md R126). -/
inductive Channel where
  | tc | amb

namespace Channel

/-- The command that pushes to the channel. -/
def push : Channel → F64 → Instr
  | tc => .filtPushTc
  | amb => .filtPushAmb

/-- The channel's window. -/
def win : Channel → State → List Num64
  | tc => State.winTc
  | amb => State.winAmb

/-- The capacity of the channel's window. -/
def cap : Channel → State → Nat
  | tc, s => s.cfg.nTc
  | amb, s => s.cfg.nAmb

/-- The other channel. -/
def other : Channel → Channel
  | tc => amb
  | amb => tc

/-- The state after a command that only responds, with `w` as the channel's window. -/
def done : Channel → State → List Num64 → Byte → List Byte → State
  | tc, s, w => quietDone s w s.winAmb
  | amb, s, w => quietDone s s.winTc w

variable (c : Channel) (s : State) (w : List Num64) (status : Byte) (payload : List Byte)

@[simp] theorem win_done : c.win (c.done s w status payload) = w := by cases c <;> rfl
@[simp] theorem win_other_done : c.other.win (c.done s w status payload) = c.other.win s := by cases c <;> rfl
@[simp] theorem cap_done : c.cap (c.done s w status payload) = c.cap s := by cases c <;> rfl
@[simp] theorem trace_done : (c.done s w status payload).trace = s.trace ++ [.respond status payload] := by
  cases c <;> rfl

end Channel

/-! ### A push -/

section

variable {c : Channel} {s t s' t' : State} {v : F64} {x : Num64}

/-- What a push does, for either channel. -/
theorem exec_push_cases (c : Channel) (v : F64) (s : State) :
    (numsFinite [v] = true ∧ exec (c.push v) s = .next
      (c.done s (pushWindow (c.cap s) (c.win s) (numOperand v)) statusOk
        (payloadOf (numericsMean (pushWindow (c.cap s) (c.win s) (numOperand v)))))) ∨
    (numsFinite [v] = false ∧ exec (c.push v) s = .next (c.done s (c.win s) statusBadOperand [])) :=
  match c with
  | .tc => execFiltPushTc_next v s
  | .amb => execFiltPushAmb_next v s

/-- A push of a finite value: the window after it, and its mean as the response (45_filter.md R126). -/
theorem exec_push (c : Channel) (s : State) (h : Num64.ofBits? v = some x) :
    exec (c.push v) s = .next (c.done s (pushWindow (c.cap s) (c.win s) x) 0x00
      (leBytes (numericsMean (pushWindow (c.cap s) (c.win s) x)).toBits)) := by
  have hoperand : numOperand v = x := by rw [numOperand, h, Option.getD_some]
  have hfinite : numsFinite [v] = true := by simp [numsFinite, h]
  obtain ⟨-, hpush⟩ | ⟨hbad, -⟩ := exec_push_cases c v s
  · rw [hpush, hoperand]
    rfl
  · cases hfinite.symm.trans hbad

/-- A first push of a finite value responds with the value. -/
theorem exec_push_first (h : Num64.ofBits? v = some x) (hempty : c.win s = []) :
    ∃ y : Num64, y.toQ = x.toQ ∧ exec (c.push v) s = .next (c.done s [x.canon] 0x00 (leBytes y.toBits)) := by
  obtain ⟨y, hmean, hy⟩ := numericsMean_singleton x.canon
  refine ⟨y, hy.trans x.canon_toQ, ?_⟩
  rw [exec_push c s h, hempty, pushWindow_nil, hmean]
  rfl

/-- What a push leaves in its window and what it emits is a function of the value, the window and its capacity. -/
theorem exec_push_independent (hwin : c.win s = c.win t) (hcap : c.cap s = c.cap t)
    (hs : exec (c.push v) s = .next s') (ht : exec (c.push v) t = .next t') :
    c.win s' = c.win t' ∧ s'.trace.drop s.trace.length = t'.trace.drop t.trace.length := by
  obtain ⟨hok, hs'⟩ | ⟨hbad, hs'⟩ := exec_push_cases c v s <;>
    obtain ⟨hok', ht'⟩ | ⟨hbad', ht'⟩ := exec_push_cases c v t
  · cases hs'.symm.trans hs
    cases ht'.symm.trans ht
    simp [hwin, hcap]
  · cases hok.symm.trans hbad'
  · cases hok'.symm.trans hbad
  · cases hs'.symm.trans hs
    cases ht'.symm.trans ht
    simp [hwin]

/-! ### A sequence of pushes -/

/-- A command that answers a next state is followed by the rest of the list. -/
theorem execAll_cons_of_next {i : Instr} {is : List Instr} (h : exec i s = .next t) :
    execAll (i :: is) s = execAll is t := by
  rw [execAll, h]

/-- Pushes of finite values, one after another, act on the channel's window alone. -/
theorem execAll_push (c : Channel) {vs : List F64} {xs : List Num64} (h : vs.map Num64.ofBits? = xs.map some)
    (s : State) :
    c.win (execAll (vs.map c.push) s) = xs.foldl (pushWindow (c.cap s)) (c.win s) ∧
    c.other.win (execAll (vs.map c.push) s) = c.other.win s := by
  induction vs generalizing xs s with
  | nil =>
    obtain rfl : xs = [] := List.map_eq_nil_iff.1 h.symm
    exact ⟨rfl, rfl⟩
  | cons v vs ih =>
    obtain ⟨x, xs, rfl, hx, hxs⟩ := List.map_eq_cons_iff.1 h.symm
    rw [List.map_cons, execAll_cons_of_next (exec_push c s hx.symm), List.foldl_cons]
    simp [ih hxs.symm]

/-- After pushes of finite values to an empty window, it holds the last of them. -/
theorem execAll_push_of_empty {vs : List F64} {xs : List Num64} (hempty : c.win s = []) (hcap : 1 ≤ c.cap s)
    (h : vs.map Num64.ofBits? = xs.map some) :
    c.win (execAll (vs.map c.push) s) = (xs.map Num64.canon).drop (xs.length - c.cap s) ∧
    c.other.win (execAll (vs.map c.push) s) = c.other.win s := by
  obtain ⟨hwin, hother⟩ := execAll_push c h s
  refine ⟨?_, hother⟩
  have hlast := foldl_pushWindow hcap [] xs
  rw [List.rtake_nil, List.nil_append, List.rtake, List.length_map] at hlast
  rw [hwin, hempty, hlast]

end

/-! ### The obligations -/

/-- Settles O26: the window after a push is `pushWindow`, for each channel. -/
theorem pushAppendsAndEvicts : Obligations.PushAppendsAndEvicts :=
  ⟨fun s _ _ => exec_push .tc s, fun s _ _ => exec_push .amb s⟩

/-- Settles O28: the running sums are the intermediates of the mean. -/
theorem meanIsExactWhenRepresentable : Obligations.MeanIsExactWhenRepresentable :=
  fun _ _ _ => numericsMean_exact

/-- Settles O29: by induction on the pushes, with the history of the window. -/
theorem windowHoldsTheLastPushes : Obligations.WindowHoldsTheLastPushes :=
  ⟨fun _ _ _ => execAll_push_of_empty (c := .tc), fun _ _ _ => execAll_push_of_empty (c := .amb)⟩

/-- Settles O30: the window after a first push is the one sample, whose mean is exact. -/
theorem firstPushReturnsItsOwnValue : Obligations.FirstPushReturnsItsOwnValue :=
  fun _ _ _ h => ⟨fun hempty _ => exec_push_first (c := .tc) h hempty,
    fun hempty _ => exec_push_first (c := .amb) h hempty⟩

/-- Settles O31: each channel's push reads its own window and capacity only. -/
theorem windowsAreIndependent : Obligations.WindowsAreIndependent :=
  ⟨fun _ _ _ _ _ => exec_push_independent (c := .tc), fun _ _ _ _ _ => exec_push_independent (c := .amb)⟩

end Sys2Proof.Machine

/-! PROOFS. The statements of 46_compensation.md: what `COMPENSATE` responds with, and the exactness of the compensated
temperature. -/

namespace Sys2Proof.Machine

/-- A finite operand field is taken as the `Num` it holds. -/
theorem numOperand_of_ofBits? {v : F64} {x : Num64} (h : Num64.ofBits? v = some x) : numOperand v = x := by
  rw [numOperand, h, Option.getD_some]

/-- `COMPENSATE` on finite operands responds with `numerics.comp` of the two and changes nothing else. -/
theorem exec_compensate (s : State) {tcBits ambBits : F64} {tc amb : Num64} (htc : Num64.ofBits? tcBits = some tc)
    (hamb : Num64.ofBits? ambBits = some amb) :
    exec (.compensate tcBits ambBits) s =
      .next (quietDone s s.winTc s.winAmb 0x00 (leBytes (numericsComp tc amb).toBits)) := by
  have hfinite : numsFinite [tcBits, ambBits] = true := by simp [numsFinite, htc, hamb]
  obtain ⟨-, hcomp⟩ | ⟨hbad, -⟩ := execCompensate_next tcBits ambBits s
  · rw [exec, hcomp, numOperand_of_ofBits? htc, numOperand_of_ofBits? hamb]
    rfl
  · cases hfinite.symm.trans hbad

/-- Where `amb - 25` and the sum are values of the format, `numerics.comp` is the exact result: the difference is the
one intermediate of its evaluation order (46_compensation.md R138). -/
theorem numericsComp_exact {tc amb d r : Num64} (hd : d.toQ = amb.toQ - tRefC) (hr : r.toQ = tc.toQ + d.toQ) :
    ∃ v : Num64, numericsComp tc amb = .num v ∧ v.toQ = compExact tc amb := by
  rw [hd] at hr
  exact realize_exact _ (List.forall_mem_singleton.2 ⟨d, hd⟩) ⟨r, hr⟩

/-- At the reference ambient the difference is 0, so the sum is `tc` itself: both are values of the format. -/
theorem numericsComp_of_reference (tc : Num64) {amb : Num64} (hamb : amb.toQ = tRefC) :
    ∃ v : Num64, numericsComp tc amb = .num v ∧ v.toQ = tc.toQ := by
  have hd : (Num64.zero false).toQ = amb.toQ - tRefC := by rw [Num64.toQ_zero, hamb, sub_self]
  have hr : tc.toQ = tc.toQ + (Num64.zero false).toQ := by rw [Num64.toQ_zero, add_zero]
  obtain ⟨v, hv, hexact⟩ := numericsComp_exact hd hr
  exact ⟨v, hv, by rw [hexact, compExact, ← hd, ← hr]⟩

/-- The field `0x4039000000000000` holds the reference ambient, 25.0. -/
theorem ofBits?_reference : ∃ amb : Num64, Num64.ofBits? 0x4039000000000000 = some amb ∧ amb.toQ = tRefC :=
  ⟨⟨false, 1027, 0x9000000000000⟩, rfl, Num64.toQ_of_ofQ? (by decide +kernel)⟩

/-! ### The obligations -/

/-- Settles O32: the operands pass the check, and the response reads nothing but them. -/
theorem compensateRespondsWithTheCorrection : Obligations.CompensateRespondsWithTheCorrection :=
  fun s _ _ _ _ => exec_compensate s

/-- Settles O33: `amb - 25` is the only intermediate of the evaluation order. -/
theorem compensationIsExactWhenRepresentable : Obligations.CompensationIsExactWhenRepresentable :=
  fun _ _ _ _ => numericsComp_exact

/-- Settles O34: 25.0 is the reference ambient, at which the correction is 0. -/
theorem referenceAmbientLeavesTcUnchanged : Obligations.ReferenceAmbientLeavesTcUnchanged := by
  intro s tcBits tc htc
  obtain ⟨amb, hamb, hreference⟩ := ofBits?_reference
  obtain ⟨v, hcomp, hv⟩ := numericsComp_of_reference tc hreference
  refine ⟨v, hv, ?_⟩
  rw [exec_compensate s htc hamb, hcomp]
  rfl

end Sys2Proof.Machine

/-! PROOFS. The statements of 47_arithmetic_control_access.md: the sign of an infinite result, and the encoding of a
number. -/

namespace Sys2Proof

/-! ### Infinities -/

/-- A result is finite, or an infinity of the sign of an overflow (47_arithmetic_control_access.md R148): `Past P` is
any statement that follows from `P` of the exact result or of an intermediate. -/
theorem realize_overflow_cases {free : FreeResult} {steps : List Rat} {q : Rat} {Past : (Rat → Prop) → Prop}
    (hpast : ∀ (P : Rat → Prop), ∀ x ∈ q :: steps, P x → Past P) :
    (∃ n, realize free steps q = .num n) ∨
    (realize free steps q = .inf false ∧ Past fun x => maxFinite < x) ∨
    (realize free steps q = .inf true ∧ Past fun x => x < -maxFinite) := by
  cases hresult : realize free steps q with
  | num n => exact .inl ⟨n, rfl⟩
  | inf neg =>
    obtain ⟨x, hx, hout⟩ := realize_eq_inf hresult
    cases neg with
    | false => exact .inr (.inl ⟨rfl, hpast _ x hx hout⟩)
    | true => exact .inr (.inr ⟨rfl, hpast _ x hx hout⟩)

/-! ### The encoding -/

/-- A number is read back from its encoding, field by field. -/
theorem Num64.ofBits?_toBits (n : Num64) : Num64.ofBits? n.toBits = some n := by
  have hexpo : (n.toBits.extractLsb' 52 11).toNat = n.expo.val := by
    have hlt := n.expo.isLt
    rw [Num64.toBits_expo, BitVec.toNat_ofNat]
    omega
  simp only [Num64.ofBits?, hexpo, n.expo.isLt, dite_true, Num64.toBits_frac, Num64.toBits_sign]

/-- A field is its sign bit, its exponent field and its fraction field, one after another. -/
theorem F64.append_fields (v : F64) :
    BitVec.ofBool (v.getLsbD 63) ++ v.extractLsb' 52 11 ++ v.extractLsb' 0 52 = v := by
  apply BitVec.eq_of_getLsbD_eq
  intro i hi
  simp only [BitVec.getLsbD_append, BitVec.getLsbD_extractLsb', BitVec.getLsbD_ofBool]
  split
  case isTrue hfrac => simp only [hfrac, decide_true, Bool.true_and, Nat.zero_add]
  case isFalse hfrac =>
    split
    case isTrue hexpo => simp only [hexpo, decide_true, Bool.true_and, show 52 + (i - 52) = i by omega]
    case isFalse hexpo =>
      obtain rfl : i = 63 := by omega
      rfl

/-- A finite field is the encoding of the number it holds. -/
theorem Num64.toBits_of_ofBits? {v : F64} {n : Num64} (h : Num64.ofBits? v = some n) : n.toBits = v := by
  simp only [Num64.ofBits?, Option.dite_none_right_eq_some, Option.some.injEq] at h
  obtain ⟨-, rfl⟩ := h
  rw [Num64.toBits, BitVec.ofNat_toNat, BitVec.setWidth_eq, F64.append_fields]

namespace Machine

/-! ### The obligations -/

/-- Settles O37: the intermediates of the mean are the sums of some of the oldest samples, and the compensated
temperature has the one intermediate `amb - 25`. -/
theorem infinityHasTheSignOfAnOverflow : Obligations.InfinityHasTheSignOfAnOverflow := by
  constructor
  · intro w past
    refine realize_overflow_cases (Past := past) fun P x hx hP => ?_
    obtain rfl | hx := List.mem_cons.1 hx
    · exact .inl (meanExact_eq w ▸ hP)
    · obtain ⟨k, hk, rfl⟩ := mem_runningSums hx
      rw [zero_add] at hP
      exact .inr ⟨k, hk, hP⟩
  · intro tc amb past
    refine realize_overflow_cases (Past := past) fun P x hx hP => ?_
    obtain rfl | hx := List.mem_cons.1 hx
    · exact .inl hP
    · exact .inr (List.mem_singleton.1 hx ▸ hP)

/-- Settles O38: the encoding is the three fields of a number side by side. -/
theorem numEncodingRoundTrip : Obligations.NumEncodingRoundTrip :=
  ⟨Num64.ofBits?_toBits, fun _ _ => Num64.toBits_of_ofBits?⟩

end Machine

end Sys2Proof

/-! PROOFS. The statements of 60_exceptions.md: BAD_OPERAND, the Engine that takes no further step, and the refused
runs. -/

namespace Sys2Proof.Machine

/-! ### BAD_OPERAND -/

/-- A field holds no number exactly when its exponent field is all ones (30_encoding.md R67). -/
theorem ofBits?_eq_none_iff {v : F64} : Num64.ofBits? v = none ↔ notFinite v := by
  have hlt := (v.extractLsb' 52 11).isLt
  simp only [Num64.ofBits?, dite_eq_right_iff, reduceCtorEq, imp_false, notFinite, ← BitVec.toNat_inj,
    BitVec.toNat_ofNat]
  omega

/-- The operand check fails exactly when one of the fields holds a NaN or an infinity. -/
theorem numsFinite_eq_false_iff {vs : List F64} : numsFinite vs = false ↔ ∃ v ∈ vs, notFinite v := by
  simp only [numsFinite, List.all_eq_false, Bool.not_eq_true, Option.isSome_eq_false_iff, Option.isNone_iff_eq_none,
    ofBits?_eq_none_iff]

/-- A push of a NaN or an infinity only responds BAD_OPERAND, for either channel (60_exceptions.md R160). -/
theorem exec_push_notFinite (c : Channel) (s : State) {v : F64} (h : notFinite v) :
    exec (c.push v) s = .next (quietDone s s.winTc s.winAmb 0x81 []) := by
  have hbad : numsFinite [v] = false := numsFinite_eq_false_iff.2 ⟨v, List.mem_singleton_self v, h⟩
  obtain ⟨hok, -⟩ | ⟨-, hexec⟩ := exec_push_cases c v s
  · cases hok.symm.trans hbad
  · rw [hexec]
    cases c <;> rfl

/-- `COMPENSATE` with a NaN or an infinity only responds BAD_OPERAND (60_exceptions.md R160). -/
theorem exec_compensate_notFinite (s : State) {tc amb : F64} (h : notFinite tc ∨ notFinite amb) :
    exec (.compensate tc amb) s = .next (quietDone s s.winTc s.winAmb 0x81 []) := by
  have hbad : numsFinite [tc, amb] = false := numsFinite_eq_false_iff.2 (by simpa using h)
  obtain ⟨hok, -⟩ | ⟨-, hexec⟩ := execCompensate_next tc amb s
  · cases hok.symm.trans hbad
  · exact hexec

/-- Settles O27: an exponent of all ones fails the operand check, which ends each of the three commands. -/
theorem nonFiniteOperandIsBadOperand : Obligations.NonFiniteOperandIsBadOperand :=
  ⟨fun _ => ofBits?_eq_none_iff,
    fun s _ h => ⟨exec_push_notFinite .tc s h, exec_push_notFinite .amb s h⟩,
    fun s _ _ => exec_compensate_notFinite s⟩

/-! ### No further step -/

/-- A refused run has no step, whatever else its state holds (60_exceptions.md R162). -/
theorem step_of_refused {s : State} (h : s.refused = true) : step s = .refused .runRefused := if_pos h

/-- Settles O8: neither refusal nor reset comes first, so the step is the fault of `Undefined`, or of the hang. -/
theorem stuckEngineTakesNoStep : Obligations.StuckEngineTakesNoStep := by
  refine ⟨fun s hrefused hreset hub => ?_, fun s op k hrefused hreset hub hseq => ?_⟩
  · simp [step, hrefused, hreset, hub]
  · simp [step, hrefused, hreset, hub, hseq]

/-- The numeric ranges of a valid configuration (00_scope.md R9). -/
theorem ranges_of_configValid {c : Config} (h : configValid c = true) :
    1 ≤ c.cols ∧ 1 ≤ c.rows ∧ c.rows ≤ 4 ∧ 0 < c.vref ∧ 0 < c.fullScale := by
  simp only [configValid, Bool.and_eq_true, decide_eq_true_eq] at h
  obtain ⟨⟨⟨⟨⟨⟨⟨⟨hcols, hrows⟩, hrows4⟩, -⟩, hvref⟩, hfull⟩, -⟩, -⟩, -⟩ := h
  exact ⟨hcols, hrows, hrows4, hvref, hfull⟩

/-- Settles O42: reset leaves a configuration outside its ranges refused, and each named value is outside. -/
theorem badConfigurationIsRefused : Obligations.BadConfigurationIsRefused := by
  refine ⟨fun c e hinvalid => step_of_refused (by simp [hinvalid]), fun c hbad => ?_⟩
  refine Bool.eq_false_iff.2 fun hvalid => ?_
  obtain ⟨hcols, hrows, hrows4, hvref, hfull⟩ := ranges_of_configValid hvalid
  obtain ⟨hTc, hAmb⟩ := capacities_pos hvalid
  simp only [hvref.not_ge, or_false] at hbad
  omega

/-- Settles O53: a rejected line refuses the run, an accepted one sends its bytes. -/
theorem rejectedTextIsRefused : Obligations.RejectedTextIsRefused := by
  refine fun line s => ⟨fun hrejected => step_of_refused ?_, fun is haccepted => ?_⟩
  · rw [State.hostAssembles, hrejected]
    rfl
  · rw [State.hostAssembles, haccepted]
    rfl

end Sys2Proof.Machine

/-! PROOFS. The statements of 70_reset_and_hazards.md: the minimum durations, and reset. -/

namespace Sys2Proof.Machine

/-! ### Minimum durations -/

/-- In any timing that respects the waits, a response comes at least their sum after the first event of its command,
when that event has a time: no wait stands outside the two (00_scope.md R15). -/
theorem RespectsWaits.response_after_waits {e : Event} {evs : List Event} {st : Byte} {p : List Byte}
    {time : Nat → Nat} (h : RespectsWaits (e :: evs ++ [.respond st p]) time) (hfirst : isTimed e = true) :
    time 0 + waitSum (e :: evs) ≤ time (e :: evs).length := by
  have hlast := h 0 (e :: evs).length (Nat.succ_pos _) (by simp [hfirst]) (by simp [isTimed])
  rwa [List.drop_zero, Nat.sub_zero, List.take_left] at hlast

/-- What the duration table says of a command's events before its response: their bus writes and waits, and that the
first of them, when there is one, has a time. -/
structure Lasts (duration : Nat × Nat) (pre : List Event) : Prop where
  writes : writeCount pre = duration.1
  waits  : waitSum pre = duration.2
  first  : pre.head?.all isTimed = true

/-- No event before the response: no write and no wait. -/
theorem lasts_nil : Lasts (0, 0) [] := ⟨rfl, rfl, rfl⟩

/-- With the response behind them, the events of a command take in any timing at least as long as the table says. -/
theorem Lasts.with_response {duration : Nat × Nat} {pre : List Event} (h : Lasts duration pre) (st : Byte)
    (p : List Byte) :
    writeCount (pre ++ [.respond st p]) = duration.1 ∧ waitSum (pre ++ [.respond st p]) = duration.2 ∧
      ∀ time : Nat → Nat, RespectsWaits (pre ++ [.respond st p]) time →
        time 0 + duration.2 ≤ time ((pre ++ [Event.respond st p]).length - 1) := by
  obtain ⟨hwrites, hwaits, hfirst⟩ := h
  refine ⟨by rw [writeCount_append, hwrites]; rfl, by rw [waitSum_append, hwaits]; rfl, fun time htime => ?_⟩
  rw [List.length_append, List.length_singleton, Nat.add_sub_cancel, ← hwaits]
  cases pre with
  | nil => exact Nat.le_refl _
  | cons e evs => exact htime.response_after_waits hfirst

/-- The script of an LCD command has the writes and waits of the table, and begins with a write. -/
theorem lasts_script {i : Instr} (hlcd : isLcd i = true) (s : State) :
    Lasts (durationTable s.cfg i) (scriptOf s i).events := by
  cases i with
  | lcdInit =>
    rw [events_lcdInit]
    exact ⟨writeCount_initEvents .., waitSum_initEvents .., rfl⟩
  | tcRead | ambRead | filtPushTc _ | filtPushAmb _ | compensate _ _ | reserved _ => cases hlcd
  | _ =>
    refine ⟨rfl, ?_, rfl⟩
    simp [scriptOf, toggleScript, Script.events, waitSum_append, waitSum, durationTable, postClearDelay,
      postHomeDelay, milli]

/-- The waits of a read: the settle time, and the two halves of each clock (43_thermocouple.md R112). -/
theorem waitSum_tcEvents (c : Config) (bits : List Bool) :
    waitSum (tcEvents c bits) = 1000000 + bits.length * (c.tcSckHighMin + c.tcSckLowMin) := by
  have hclocks : waitSum (bits.flatMap (clockEvents c)) = bits.length * (c.tcSckHighMin + c.tcSckLowMin) := by
    induction bits with
    | nil => simp [waitSum]
    | cons b bits ih =>
      rw [List.flatMap_cons, waitSum_append, ih, List.length_cons, Nat.succ_mul, Nat.add_comm]
      rfl
  simp [tcEvents, waitSum_append, hclocks, waitSum]

/-- A read makes no write, waits as the table says, and begins with the selection of the chip. -/
theorem lasts_tcEvents (s : State) : Lasts (durationTable s.cfg .tcRead) (tcEvents s.cfg (readBits s)) := by
  refine ⟨?_, ?_, rfl⟩
  · rw [writeCount, busBytes_tcEvents]
    rfl
  · rw [waitSum_tcEvents, readBits, length_tcSamples]
    rfl

/-- An LCD command that ends emits its script, which lasts as long as the table says, and then its response: neither a
write that never returns nor an undefined row lets it end. -/
theorem exec_lcd_lasts {i : Instr} (hlcd : isLcd i = true) {s t : State} (h : exec i s = .next t)
    (hready : t.seq = .ready) :
    ∃ pre st p, t.trace = s.trace ++ (pre ++ [.respond st p]) ∧ Lasts (durationTable s.cfg i) pre := by
  obtain ⟨-, hdone⟩ | ⟨m, -, -, hhung⟩ | ⟨col, row, rfl, hrow⟩ := exec_lcd_cases i hlcd s
  · rw [hdone, List.append_assoc] at h
    cases h
    exact ⟨_, _, _, rfl, lasts_script hlcd s⟩
  · rw [hhung] at h
    cases h
    cases hready
  · rw [exec_undefinedRow s col row hrow] at h
    cases h
    cases hready

/-- A command that ends emits events that last as long as the table says, and then its response. -/
theorem exec_lasts {i : Instr} {s t : State} (h : exec i s = .next t) (hready : t.seq = .ready) :
    ∃ pre st p, t.trace = s.trace ++ (pre ++ [.respond st p]) ∧ Lasts (durationTable s.cfg i) pre := by
  cases i with
  | tcRead =>
    rw [exec, execTcRead_next, List.append_assoc] at h
    cases h
    exact ⟨_, _, _, rfl, lasts_tcEvents s⟩
  | ambRead =>
    rw [exec, execAmbRead_next] at h
    cases h
    exact ⟨[.adcSample _], _, _, rfl, rfl, rfl, rfl⟩
  | filtPushTc v =>
    obtain ⟨-, hexec⟩ | ⟨-, hexec⟩ := execFiltPushTc_next v s <;> rw [exec, hexec] at h <;> cases h <;>
      exact ⟨[], _, _, rfl, lasts_nil⟩
  | filtPushAmb v =>
    obtain ⟨-, hexec⟩ | ⟨-, hexec⟩ := execFiltPushAmb_next v s <;> rw [exec, hexec] at h <;> cases h <;>
      exact ⟨[], _, _, rfl, lasts_nil⟩
  | compensate tc amb =>
    obtain ⟨-, hexec⟩ | ⟨-, hexec⟩ := execCompensate_next tc amb s <;> rw [exec, hexec] at h <;> cases h <;>
      exact ⟨[], _, _, rfl, lasts_nil⟩
  | reserved opc =>
    rw [exec, execReserved_next] at h
    cases h
    exact ⟨[], _, _, rfl, lasts_nil⟩
  | _ => exact exec_lcd_lasts rfl h hready

/-- Settles O51: a command that ends has the writes and waits of the table before its response, and no wait stands
before its first event or behind the response. -/
theorem minimumDurations : Obligations.MinimumDurations := by
  intro i s t h hready
  obtain ⟨pre, st, p, htrace, hlasts⟩ := exec_lasts h hready
  exact ⟨_, htrace, List.concat_ne_nil _ _, hlasts.with_response st p⟩

/-! ### Reset -/

/-- Settles O40: the fields of the reset state, of which only `s.refused` depends on the configuration's ranges. -/
theorem resetValues : Obligations.ResetValues := by
  intro c hvalid
  have hrefused : (State.resetOf c).refused = false := by rw [State.resetOf_refused, hvalid, Bool.not_true]
  exact ⟨rfl, rfl, rfl, rfl, rfl, rfl, rfl, rfl, rfl, rfl, rfl, rfl, hrefused, rfl⟩

/-- A reset request is taken before anything but a refusal (70_reset_and_hazards.md R176). -/
theorem step_of_resetReq {s : State} (hrefused : s.refused = false) (hreset : s.env.resetReq = true) :
    step s = .next (takeReset s) := by
  simp [step, hrefused, hreset]

/-- Settles O41: a reset request comes before the port; between commands it is the reset event, inside one it refuses
the run. -/
theorem resetIsServedBetweenCommandsOnly : Obligations.ResetIsServedBetweenCommandsOnly := by
  refine ⟨fun s hrefused hreset hseq hub => ?_, fun s op k hrefused hreset hseq => ?_⟩
  · rw [step_of_resetReq hrefused hreset, takeReset, if_pos ⟨hseq, hub⟩]
    rfl
  · have hinside : ¬ (s.seq = .ready ∧ s.ub = false) := by simp [hseq]
    refine ⟨_, step_of_resetReq hrefused hreset, ?_⟩
    rw [takeReset, if_neg hinside]
    exact ⟨rfl, step_of_refused rfl⟩

/-- The trace invariant holds after reset: the trace is empty and the Engine is ready. -/
theorem traceOk_resetOf (c : Config) : TraceOk (State.resetOf c) where
  lcdOk := ⟨.idle, rfl, fun _ => rfl⟩
  tcOk := rfl
  stuck := fun hseq => absurd rfl hseq

theorem invariant_resetOf (c : Config) : Invariant (State.resetOf c) := ⟨regsOk_resetOf c, traceOk_resetOf c⟩

/-- Settles O45: registers and trace meet the invariant after reset, whatever the configuration. -/
theorem resetMeetsTheInvariant : Obligations.ResetMeetsTheInvariant :=
  ⟨invariant_resetOf, invariant_resetOf Config.board⟩

end Sys2Proof.Machine
